-- ==== Sys2Proof/Word.lean ====
section
/-! DEFINITION. The words of NanoVM CORE: 64-bit registers, 8-bit bytes, the four operation widths
(spec/00_scope.md R5, R9; spec/30_encoding.md R54). -/

namespace Sys2Proof

/-- The contents of a register, an address, a value: 64 bits (00_scope R5, 10_state R10). -/
abbrev Word := BitVec 64

/-- The smallest addressable unit (00_scope R5). -/
abbrev Byte := BitVec 8

/-- The operation width of an instruction (30_encoding R54; GLOSSARY "Width"). -/
inductive Width where
  | byte
  | short
  | dword
  | qword
  deriving DecidableEq, Repr

/-- `W` in bytes: 1, 2, 4 or 8 (30_encoding R54). -/
def Width.bytes : Width → Nat
  | .byte => 1
  | .short => 2
  | .dword => 4
  | .qword => 8

/-- `8·W`, the number of bits that take part in the operation. -/
def Width.bits (w : Width) : Nat := 8 * w.bytes

end Sys2Proof
end

