-- ==== Sys2Proof/Syntax/Operand.lean ====
section
/-! DEFINITION. What instructions are made of: register numbers, the two destination forms, the four
source forms (spec/30_encoding.md R60) and the closed catalog of 22 operations (R61). -/

namespace Sys2Proof

/-- A 3-bit register field; it reaches `x[0]` to `x[7]` and nothing else (10_state R12). -/
abbrev RegIdx := BitVec 3

/-- The destination operand of an arity-2 instruction (30_encoding R60, lower table). -/
inductive Dst where
  /-- `dm = 0`, written `reg<d>`. -/
  | reg (d : RegIdx)
  /-- `dm = 1`, written `@reg<d>`: the value of `x[d]` is the address. -/
  | memReg (d : RegIdx)
  deriving DecidableEq, Repr

/-- The source operand of an arity-1 or arity-2 instruction (30_encoding R60, upper table). An
immediate holds the unsigned value of `8·W` bits; that it fits in them is checked in WellFormed. -/
inductive Src where
  /-- `t = 0, sm = 0`, written `reg<s>`. -/
  | reg (s : RegIdx)
  /-- `t = 0, sm = 1`, written `@reg<s>`. -/
  | memReg (s : RegIdx)
  /-- `t = 1, sm = 0`, written `<lit>`. -/
  | imm (v : Word)
  /-- `t = 1, sm = 1`, written `@<lit>`: the literal is the address. -/
  | memImm (v : Word)
  deriving DecidableEq, Repr

/-- The catalog of 22 operations, in the order the document lists them (30_encoding R61). -/
inductive Op where
  | add | sub | mul | div | mod | and | or | xor | shl | shr
  | mov | inc | dec | push | pop | cmp
  | jz | jnz | jg | js | printi | halt
  deriving DecidableEq, Repr

end Sys2Proof
end

