-- ==== Sys2Proof/Config.lean ====
section
/-! DEFINITION. The implementation parameters of NanoVM CORE (spec/00_scope.md R5), as a record that
State carries and no step changes (log 1). The spec fixes every other value, so there is no free
value here (INVENTORY, "What the manual leaves open"). The parameters' default values stand in
Sys2Proof/Decode.lean (`Config.default`) and the sizes computed from them in Machine/Layout.lean. -/

namespace Sys2Proof

/-- `REG_NARROW_WRITE`: what a register write at `W < 8` does to the upper bytes
(40_execute_common R91). -/
inductive NarrowWrite where
  /-- The upper bytes keep their value. -/
  | merge
  /-- The upper bytes become 0. -/
  | zeroExtend
  deriving DecidableEq, Repr

/-- The parameters a model takes as arguments (00_scope R5). -/
structure Config where
  /-- `PAGE_SIZE` in bytes; also `STACK_SIZE`. -/
  pageSize : Nat
  /-- `GUARD_SIZE` in bytes. -/
  guardSize : Nat
  /-- `L`, the length of the loaded bytecode in bytes. -/
  bytecodeLen : Nat
  /-- `OPCODE_MAP`: the code of each operation, in catalog order (30_encoding R61). -/
  opcodeMap : Vector (BitVec 5) 22
  /-- `REG_NARROW_WRITE`. -/
  narrowWrite : NarrowWrite
  deriving DecidableEq, Repr

end Sys2Proof
end

