-- ==== Sys2Proof/Syntax.lean ====
section
/-! DEFINITION. The instructions of NanoVM CORE, one constructor per row of spec/opcode_table.json
(spec/30_encoding.md R61, R62). Every instruction with operands has ONE width (R54). Ignored bits
(R64) are no part of an instruction: the decoder drops them and the encoder writes them as 0. -/

namespace Sys2Proof

/-- A decoded instruction (30_encoding R61; 40_execute_common R83). -/
inductive Instr where
  | add (w : Width) (d : Dst) (src : Src)
  | sub (w : Width) (d : Dst) (src : Src)
  | mul (w : Width) (d : Dst) (src : Src)
  | div (w : Width) (d : Dst) (src : Src)
  | mod (w : Width) (d : Dst) (src : Src)
  | and (w : Width) (d : Dst) (src : Src)
  | or (w : Width) (d : Dst) (src : Src)
  | xor (w : Width) (d : Dst) (src : Src)
  | shl (w : Width) (d : Dst) (src : Src)
  | shr (w : Width) (d : Dst) (src : Src)
  | mov (w : Width) (d : Dst) (src : Src)
  | inc (w : Width) (src : Src)
  | dec (w : Width) (src : Src)
  | push (w : Width) (src : Src)
  | pop (w : Width) (src : Src)
  | cmp (w : Width) (d : Dst) (src : Src)
  | jz (w : Width) (src : Src)
  | jnz (w : Width) (src : Src)
  | jg (w : Width) (src : Src)
  | js (w : Width) (src : Src)
  | printi (w : Width) (src : Src)
  | halt
  deriving DecidableEq, Repr

end Sys2Proof
end

