-- ==== Sys2Proof/Decode.lean ====
section
/-! DEFINITION. The encoding of NanoVM CORE (spec/30_encoding.md R50 to R68; spec/40_execute_common.md
R83): the default parameters, the decoder, the encoder, and the decoder's answer to one row of
spec/opcode_table.json. -/

namespace Sys2Proof

/-! ### The catalog -/

/-- The catalog in document order (30_encoding R61). -/
def Op.all : List Op :=
  [.add, .sub, .mul, .div, .mod, .and, .or, .xor, .shl, .shr, .mov, .inc, .dec, .push, .pop, .cmp,
   .jz, .jnz, .jg, .js, .printi, .halt]

/-- The place of an operation in the catalog; `OPCODE_MAP` is indexed by it (30_encoding R61). -/
def Op.index : Op → Fin 22
  | .add => 0 | .sub => 1 | .mul => 2 | .div => 3 | .mod => 4
  | .and => 5 | .or => 6 | .xor => 7 | .shl => 8 | .shr => 9
  | .mov => 10 | .inc => 11 | .dec => 12 | .push => 13 | .pop => 14 | .cmp => 15
  | .jz => 16 | .jnz => 17 | .jg => 18 | .js => 19 | .printi => 20 | .halt => 21

/-- The mnemonic of an operation (30_encoding R61 [D3]). -/
def Op.mnemonic : Op → String
  | .add => "add" | .sub => "sub" | .mul => "mul" | .div => "div" | .mod => "mod"
  | .and => "and" | .or => "or" | .xor => "xor" | .shl => "shl" | .shr => "shr"
  | .mov => "mov" | .inc => "inc" | .dec => "dec" | .push => "push" | .pop => "pop" | .cmp => "cmp"
  | .jz => "jz" | .jnz => "jnz" | .jg => "jg" | .js => "js" | .printi => "printi" | .halt => "halt"

/-- How many operands an operation takes and the instruction it makes of them
(30_encoding R61, R62). `writesSource` marks the three arity-1 operations that write their operand
(R66). -/
inductive Shape where
  | arity0 (i : Instr)
  | arity1 (mk : Width → Src → Instr) (writesSource : Bool)
  | arity2 (mk : Width → Dst → Src → Instr)

/-- The shape of each operation (30_encoding R61, R62, R66). -/
def Op.shape : Op → Shape
  | .add => .arity2 Instr.add
  | .sub => .arity2 Instr.sub
  | .mul => .arity2 Instr.mul
  | .div => .arity2 Instr.div
  | .mod => .arity2 Instr.mod
  | .and => .arity2 Instr.and
  | .or => .arity2 Instr.or
  | .xor => .arity2 Instr.xor
  | .shl => .arity2 Instr.shl
  | .shr => .arity2 Instr.shr
  | .mov => .arity2 Instr.mov
  | .inc => .arity1 Instr.inc true
  | .dec => .arity1 Instr.dec true
  | .push => .arity1 Instr.push false
  | .pop => .arity1 Instr.pop true
  | .cmp => .arity2 Instr.cmp
  | .jz => .arity1 Instr.jz false
  | .jnz => .arity1 Instr.jnz false
  | .jg => .arity1 Instr.jg false
  | .js => .arity1 Instr.js false
  | .printi => .arity1 Instr.printi false
  | .halt => .arity0 Instr.halt

/-- The operation an instruction belongs to. -/
def Instr.op : Instr → Op
  | .add .. => .add | .sub .. => .sub | .mul .. => .mul | .div .. => .div | .mod .. => .mod
  | .and .. => .and | .or .. => .or | .xor .. => .xor | .shl .. => .shl | .shr .. => .shr
  | .mov .. => .mov | .inc .. => .inc | .dec .. => .dec | .push .. => .push | .pop .. => .pop
  | .cmp .. => .cmp | .jz .. => .jz | .jnz .. => .jnz | .jg .. => .jg | .js .. => .js
  | .printi .. => .printi | .halt => .halt

/-! ### The opcode map -/

/-- The default `OPCODE_MAP`: 0 to 21 in document order (30_encoding R61 [D2]; log 22). -/
def defaultOpcodeMap : Vector (BitVec 5) 22 :=
  #v[0, 1, 2, 3, 4, 5, 6, 7, 8, 9, 10, 11, 12, 13, 14, 15, 16, 17, 18, 19, 20, 21]

/-- The default parameters (00_scope R5 [D1] [D2] [D5] [D11]) with no bytecode loaded (log 1,
log 2). -/
def Config.default : Config where
  pageSize := 4096
  guardSize := 10
  bytecodeLen := 0
  opcodeMap := defaultOpcodeMap
  narrowWrite := .merge

/-- The code `OPCODE_MAP` gives an operation. -/
def Config.opcode (c : Config) (op : Op) : BitVec 5 := c.opcodeMap[op.index]

/-- The operation `OPCODE_MAP` gives a code to, if any (30_encoding R63). -/
def Config.operation (c : Config) (opc : BitVec 5) : Option Op :=
  Op.all.find? (fun op => c.opcode op == opc)

/-! ### Little-endian values -/

/-- The unsigned value of bytes, the first the least significant (20_memory R30). -/
def leValue : List Byte → Nat
  | [] => 0
  | b :: bs => b.toNat + 256 * leValue bs

/-- The `n` low-order bytes of a value, the least significant first (20_memory R30). -/
def leBytes : Nat → Nat → List Byte
  | 0, _ => []
  | n + 1, v => BitVec.ofNat 8 v :: leBytes n (v / 256)

/-! ### The encoder -/

/-- The width selector `ws` (30_encoding R53, R54). -/
def Width.selector : Width → BitVec 2
  | .byte => 0
  | .short => 1
  | .dword => 2
  | .qword => 3

/-- The width a selector stands for: `W = 2^ws` (30_encoding R54). -/
def Width.ofSelector (ws : BitVec 2) : Width :=
  if ws = 0 then .byte else if ws = 1 then .short else if ws = 2 then .dword else .qword

/-- The source type bit `t` (30_encoding R53). -/
def Src.typeBit : Src → BitVec 1
  | .reg _ | .memReg _ => 0
  | .imm _ | .memImm _ => 1

/-- The source-is-memory-indirect bit `sm` (30_encoding R53). -/
def Src.indirectBit : Src → BitVec 1
  | .reg _ | .imm _ => 0
  | .memReg _ | .memImm _ => 1

/-- The source register field `s`, written as 0 for an immediate (30_encoding R53, R64). -/
def Src.field : Src → BitVec 3
  | .reg s | .memReg s => s
  | .imm _ | .memImm _ => 0

/-- The immediate bytes that follow byte 1 (30_encoding R55). -/
def Src.immBytes (w : Width) : Src → List Byte
  | .reg _ | .memReg _ => []
  | .imm v | .memImm v => leBytes w.bytes v.toNat

/-- The destination-is-memory-indirect bit `dm` (30_encoding R53). -/
def Dst.indirectBit : Dst → BitVec 1
  | .reg _ => 0
  | .memReg _ => 1

/-- The destination register field `d` (30_encoding R52). -/
def Dst.field : Dst → BitVec 3
  | .reg d | .memReg d => d

/-- Byte 0: `ddd ooooo` (30_encoding R51, R57). -/
def packByte0 (d : BitVec 3) (opc : BitVec 5) : Byte := d ++ opc

/-- Byte 1: `t ww sm dm sss` (30_encoding R53, R57). -/
def packByte1 (t : BitVec 1) (ws : BitVec 2) (sm dm : BitVec 1) (s : BitVec 3) : Byte :=
  t ++ ws ++ sm ++ dm ++ s

/-- An arity-1 instruction's bytes: formats `A1R`, `A1I` (30_encoding R57). -/
def encode1 (opc : BitVec 5) (w : Width) (src : Src) : List Byte :=
  packByte0 0 opc :: packByte1 src.typeBit w.selector src.indirectBit 0 src.field :: src.immBytes w

/-- An arity-2 instruction's bytes: formats `A2R`, `A2I` (30_encoding R57). -/
def encode2 (opc : BitVec 5) (w : Width) (d : Dst) (src : Src) : List Byte :=
  packByte0 d.field opc ::
    packByte1 src.typeBit w.selector src.indirectBit d.indirectBit src.field :: src.immBytes w

/-- The bytes of an instruction under an opcode map, ignored bits written as 0
(30_encoding R57, R64, R68). -/
def encode (c : Config) (i : Instr) : List Byte :=
  match i with
  | .add w d src => encode2 (c.opcode .add) w d src
  | .sub w d src => encode2 (c.opcode .sub) w d src
  | .mul w d src => encode2 (c.opcode .mul) w d src
  | .div w d src => encode2 (c.opcode .div) w d src
  | .mod w d src => encode2 (c.opcode .mod) w d src
  | .and w d src => encode2 (c.opcode .and) w d src
  | .or w d src => encode2 (c.opcode .or) w d src
  | .xor w d src => encode2 (c.opcode .xor) w d src
  | .shl w d src => encode2 (c.opcode .shl) w d src
  | .shr w d src => encode2 (c.opcode .shr) w d src
  | .mov w d src => encode2 (c.opcode .mov) w d src
  | .inc w src => encode1 (c.opcode .inc) w src
  | .dec w src => encode1 (c.opcode .dec) w src
  | .push w src => encode1 (c.opcode .push) w src
  | .pop w src => encode1 (c.opcode .pop) w src
  | .cmp w d src => encode2 (c.opcode .cmp) w d src
  | .jz w src => encode1 (c.opcode .jz) w src
  | .jnz w src => encode1 (c.opcode .jnz) w src
  | .jg w src => encode1 (c.opcode .jg) w src
  | .js w src => encode1 (c.opcode .js) w src
  | .printi w src => encode1 (c.opcode .printi) w src
  | .halt => [packByte0 0 (c.opcode .halt)]

/-! ### The fields of bytes 0 and 1 -/

/-- `opc`, byte 0 bits [4:0] (30_encoding R51). -/
def opcField (b0 : Byte) : BitVec 5 := b0.extractLsb' 0 5

/-- `d`, byte 0 bits [7:5] (30_encoding R51). -/
def dstField (b0 : Byte) : RegIdx := b0.extractLsb' 5 3

/-- `t`, byte 1 bit [7] (30_encoding R53). -/
def typeField (b1 : Byte) : BitVec 1 := b1.extractLsb' 7 1

/-- `ws`, byte 1 bits [6:5] (30_encoding R53). -/
def selectorField (b1 : Byte) : BitVec 2 := b1.extractLsb' 5 2

/-- `sm`, byte 1 bit [4] (30_encoding R53). -/
def srcIndirectField (b1 : Byte) : BitVec 1 := b1.extractLsb' 4 1

/-- `dm`, byte 1 bit [3] (30_encoding R53). -/
def dstIndirectField (b1 : Byte) : BitVec 1 := b1.extractLsb' 3 1

/-- `s`, byte 1 bits [2:0] (30_encoding R53). -/
def srcField (b1 : Byte) : RegIdx := b1.extractLsb' 0 3

/-- The operation width that byte 1 selects (30_encoding R54). -/
def widthOf (b1 : Byte) : Width := Width.ofSelector (selectorField b1)

/-! ### The decoder -/

/-- Why bytes are no instruction. The docstrings name the rule each rejection follows. -/
inductive DecodeError where
  /-- `OPCODE_MAP` gives the code to no operation; decided from byte 0 alone (30_encoding R63). -/
  | unknownOpcode (opc : BitVec 5)
  /-- `inc`, `dec` or `pop` with a direct immediate: no location to write (30_encoding R66). -/
  | immediateDestination (opc : BitVec 5)
  /-- The bytes end before the instruction does. A fetch under a well-formed configuration never
  meets this (20_memory R39). -/
  | truncated
  deriving DecidableEq, Repr

/-- The `W` immediate bytes and what follows them (30_encoding R55). -/
def takeImm (w : Width) (rest : List Byte) : Option (Word × List Byte) :=
  if rest.length < w.bytes then none
  else some (BitVec.ofNat 64 (leValue (rest.take w.bytes)), rest.drop w.bytes)

/-- The source operand that byte 1's fields `t`, `sm`, `s` and the bytes after it spell
(30_encoding R60; 40_execute_common R83). -/
def decodeSrc (b1 : Byte) (rest : List Byte) : Option (Src × List Byte) :=
  if typeField b1 = 0 then
    some (if srcIndirectField b1 = 0 then .reg (srcField b1) else .memReg (srcField b1), rest)
  else
    (takeImm (widthOf b1) rest).map fun r =>
      (if srcIndirectField b1 = 0 then .imm r.1 else .memImm r.1, r.2)

/-- The destination operand that `d` and `dm` spell (30_encoding R60). -/
def decodeDst (b0 b1 : Byte) : Dst :=
  if dstIndirectField b1 = 0 then .reg (dstField b0) else .memReg (dstField b0)

/-- Byte 1 says that the source is a direct immediate: `t = 1`, `sm = 0`. -/
def isDirectImm (b1 : Byte) : Bool :=
  decide (typeField b1 = 1) && decide (srcIndirectField b1 = 0)

/-- The instruction at the head of some bytes, and the bytes after it
(40_execute_common R83; 30_encoding R58). Bits the format ignores are not looked at (R64). -/
def decode (c : Config) : List Byte → Except DecodeError (Instr × List Byte)
  | [] => .error .truncated
  | b0 :: rest =>
    match c.operation (opcField b0) with
    | none => .error (.unknownOpcode (opcField b0))
    | some op =>
      match op.shape, rest with
      | .arity0 i, _ => .ok (i, rest)
      | .arity1 .., [] | .arity2 .., [] => .error .truncated
      | .arity1 mk writesSource, b1 :: rest =>
        if writesSource && isDirectImm b1 then .error (.immediateDestination (opcField b0))
        else
          match decodeSrc b1 rest with
          | none => .error .truncated
          | some (src, rest) => .ok (mk (widthOf b1) src, rest)
      | .arity2 mk, b1 :: rest =>
        match decodeSrc b1 rest with
        | none => .error .truncated
        | some (src, rest) => .ok (mk (widthOf b1) (decodeDst b0 b1) src, rest)

/-! ### Lengths -/

/-- The length of an operand-carrying instruction: 2 with a register source, `2 + W` with an
immediate (30_encoding R56). -/
def Src.length (w : Width) : Src → Nat
  | .reg _ | .memReg _ => 2
  | .imm _ | .memImm _ => 2 + w.bytes

/-- The longest instruction, in bytes (30_encoding R50). -/
def maxLength : Nat := 10

/-! ### One row of the opcode table -/

/-- The bytes of an instruction whose bits are `w`, byte `k` being bits `8k+7 .. 8k`, every bit from
`nbits` up being 0, up to the longest instruction. -/
def tableBytes (nbits w : Nat) : List Byte := leBytes maxLength (w % 2 ^ nbits)

/-- What the decoder reads, under the default parameters, from an instruction whose bits are `w`. -/
def decodeTableWord (nbits w : Nat) : Option Instr :=
  match decode Config.default (tableBytes nbits w) with
  | .ok (i, _) => some i
  | .error _ => none

end Sys2Proof
end

