-- ==== Sys2Proof/Machine/Layout.lean ====
section
/-! DEFINITION. The sizes and boundaries of VM memory, computed from the parameters
(spec/00_scope.md R5; spec/20_memory.md R35; spec/70_reset_and_hazards.md R192), and the constraints
on the parameters. -/

namespace Sys2Proof

/-- `CODE_SIZE`: the bytecode's length rounded up to whole pages (70_reset R192 [D6]). -/
def Config.codeSize (c : Config) : Nat :=
  (c.bytecodeLen + (c.pageSize - 1)) / c.pageSize * c.pageSize

/-- `STACK_SIZE`: one page (00_scope R5). -/
def Config.stackSize (c : Config) : Nat := c.pageSize

/-- `STACK_BASE`: the stack segment follows the code segment (00_scope R5 [C5]). -/
def Config.stackBase (c : Config) : Nat := c.codeSize

/-- `MEM_LIMIT`: the end of what data accesses may touch (00_scope R5). -/
def Config.memLimit (c : Config) : Nat := c.codeSize + c.stackSize

/-- `MEM_TOTAL`: the number of bytes of `M`, guard area included (00_scope R5). -/
def Config.memTotal (c : Config) : Nat := c.memLimit + c.guardSize

/-- What 00_scope R5 requires of the parameters: a page of at least 16 bytes [D1], a guard of at
least 10 [D5], an injective opcode map [D2], a memory whose offsets are 64-bit values [D34]. -/
abbrev Config.WF (c : Config) : Prop :=
  16 ≤ c.pageSize ∧ 10 ≤ c.guardSize ∧ (Op.all.map c.opcode).Nodup ∧ c.memTotal < 2 ^ 64

end Sys2Proof
end

