-- ==== Sys2Proof/Machine/State.lean ====
section
/-! DEFINITION. The state of NanoVM CORE (spec/10_state.md), as plain data, and the state after reset
(R26). The tuple `(x[0..7], ip, esp, flags, M, status, out)` and the fault record are the spec's
whole state; `cfg` holds the parameters of spec/00_scope.md R5, which no step changes (log 1). -/

namespace Sys2Proof.Machine

/-- The flags register, "a single discriminated value" (10_state R18). -/
inductive Flags where
  | none
  | zero
  | greater
  | smaller
  deriving DecidableEq, Repr

/-- The runtime fault kinds (60_exceptions R160). These are outcomes INSIDE the state: a step that
raises one answers a next state whose status is Faulted (R166; log 3). -/
inductive FaultKind where
  /-- Raised by the fetch of any step: `ip ≥ CODE_SIZE` (40_execute_common R81). -/
  | ipOutOfBounds
  /-- Raised by any memory-indirect operand out of bounds (20_memory R36). -/
  | memoryAccessViolation
  /-- Raised by `push` (44_stack R131). -/
  | stackOverflow
  /-- Raised by `pop` (44_stack R133). -/
  | stackUnderflow
  /-- Raised by decode (30_encoding R63, R66). -/
  | invalidInstruction
  /-- Raised by `div` and `mod` (41_arithmetic_bitwise R113). -/
  | divideByZero
  deriving DecidableEq, Repr

/-- The run status (10_state R21). -/
inductive Status where
  | running
  | halted
  | faulted (kind : FaultKind)
  deriving DecidableEq, Repr

/-- The `info` column of 60_exceptions R160; which kind records which is the table's (log 18). -/
inductive FaultInfo where
  /-- IpOutOfBounds: the value of `ip`. -/
  | ip (v : Word)
  /-- MemoryAccessViolation: the offending address. -/
  | address (a : Word)
  /-- StackOverflow and StackUnderflow: `esp` and `W`. -/
  | stack (esp : Word) (w : Width)
  /-- InvalidInstruction: the `opc` field. -/
  | opcode (opc : BitVec 5)
  /-- DivideByZero: none. -/
  | none
  deriving DecidableEq, Repr

/-- The fault record `(kind, ip, opc, info)` (60_exceptions R162 [D27]). -/
structure FaultRecord where
  kind : FaultKind
  /-- `ip` at the start of the faulting step. -/
  ip : Word
  /-- The opcode field, absent when byte 0 was not fetched. -/
  opc : Option (BitVec 5)
  info : FaultInfo
  deriving DecidableEq, Repr

/-- The bytes of `M` that are not 0, by offset (20_memory R35; log 7). -/
abbrev Memory := List Host.Cell

/-- The canonical form: offsets strictly rising, no entry equal to the 0 an unlisted offset reads
as. Equal memories are then equal lists. -/
abbrev Memory.wf (m : Memory) : Prop :=
  m.Pairwise (fun p q => p.1 < q.1) ∧ ∀ cell ∈ m, cell.2 ≠ 0

/-- The state of the machine (10_state, whole). -/
structure State where
  /-- `x[0]` to `x[7]` (R10). -/
  x : Vector Word 8
  /-- The instruction pointer (R14). -/
  ip : Word
  /-- The stack pointer, an offset in the stack segment (R17). -/
  esp : Word
  /-- The flags register (R18). -/
  flags : Flags
  /-- `M` (R23). -/
  mem : Memory
  /-- The run status (R21). -/
  status : Status
  /-- The record kept with Faulted (R21; 60_exceptions R162). -/
  faultRecord : Option FaultRecord
  /-- The output stream, oldest value first (R22). -/
  out : List Word
  /-- The parameters (00_scope R5), fixed for a run. -/
  cfg : Config
  deriving DecidableEq, Repr

/-- Why there is no next state. The spec's own faults are not here: they are next states
(log 3). -/
inductive Fault where
  /-- Raised by the step from a Halted machine, which has no step (40_execute_common R80; log 4).
  Safe: the spec gives no successor. -/
  | haltedHasNoStep
  /-- Raised by the step from a Faulted machine, which has no step (40_execute_common R80; log 4).
  Safe: the spec gives no successor. -/
  | faultedHasNoStep
  /-- Raised by a fetch or by `pop` that would read an offset at or above `MEM_TOTAL`, which does not
  exist (20_memory R35; log 5). No state with `State.Inv` raises it. Safe: it stops. -/
  | beyondMemory
  deriving DecidableEq, Repr

/-- Why an instruction is given no meaning. -/
inductive Refusal where
  /-- Raised by an arm of `exec` whose instruction is not modelled yet; no arm does. Safe. -/
  | notModelled (mnemonic : String)
  deriving DecidableEq, Repr

/-- What a meaning answers. -/
abbrev Result := Host.Outcome State Fault Refusal

/-- The state after reset (10_state R26), of the machine whose bytecode is empty and whose parameters
are the defaults (log 2). -/
def State.reset : State where
  x := Vector.replicate 8 0
  ip := 0
  esp := 0
  flags := .none
  mem := []
  status := .running
  faultRecord := none
  out := []
  cfg := Config.default

end Sys2Proof.Machine
end

