-- ==== Sys2Proof/Machine/Ops.lean ====
section
/-! DEFINITION. The named operations over registers and memory (spec/00_scope.md R7;
spec/20_memory.md), reset with a bytecode (spec/70_reset_and_hazards.md R190), the advance of `ip`
(spec/10_state.md R15), and the raising of a fault (spec/60_exceptions.md R166). There is no return
from a fault (R167), so no operation for one. -/

namespace Sys2Proof.Machine

/-! ### Memory, one byte at a time -/

/-- The byte at an offset; an unlisted offset reads as 0, its contents at reset
(10_state R26). -/
def Memory.read : Memory → Nat → Byte
  | [], _ => 0
  | (k, b) :: m, a => if k = a then b else Memory.read m a

/-- Puts a non-zero byte at its place in the canonical form. -/
def Memory.insert : Memory → Nat → Byte → Memory
  | [], a, v => [(a, v)]
  | (k, b) :: m, a, v =>
    if a < k then (a, v) :: (k, b) :: m
    else if a = k then (a, v) :: m
    else (k, b) :: Memory.insert m a v

/-- Writes one byte; writing the 0 that an unlisted offset reads as removes the entry. -/
def Memory.write (m : Memory) (a : Nat) (v : Byte) : Memory :=
  if v = 0 then m.filter (fun cell => decide (cell.1 ≠ a)) else Memory.insert m a v

/-! ### Memory, several bytes -/

/-- `MemRead(a, n)`: little-endian, unchecked (00_scope R7, 20_memory R30). -/
def Memory.readLE (m : Memory) (a : Nat) : Nat → Nat
  | 0 => 0
  | n + 1 => (m.read a).toNat + 256 * Memory.readLE m (a + 1) n

/-- `MemWrite(a, n, v)`: little-endian, unchecked (00_scope R7, 20_memory R30). -/
def Memory.writeLE (m : Memory) (a : Nat) : Nat → Nat → Memory
  | 0, _ => m
  | n + 1, v => Memory.writeLE (m.write a (BitVec.ofNat 8 v)) (a + 1) n (v / 256)

/-- The `n` bytes from offset `a` on. -/
def Memory.bytes (m : Memory) (a : Nat) : Nat → List Byte
  | 0 => []
  | n + 1 => m.read a :: Memory.bytes m (a + 1) n

/-- Lays bytes out from offset `a` on. -/
def Memory.writeBytes (m : Memory) (a : Nat) : List Byte → Memory
  | [] => m
  | b :: bs => Memory.writeBytes (m.write a b) (a + 1) bs

/-! ### The state's accessors -/

/-- `x[i]` (00_scope R7). -/
def State.reg (s : State) (i : RegIdx) : Word := s.x[i.toNat]'i.isLt

/-- `x[i] <- v` (00_scope R7). -/
def State.setReg (s : State) (i : RegIdx) (v : Word) : State :=
  { s with x := s.x.set i.toNat v i.isLt }

/-- `M[a]` (00_scope R7). -/
def State.byte (s : State) (a : Nat) : Byte := s.mem.read a

/-- `MemRead(a, W)` (00_scope R7). -/
def State.memRead (s : State) (w : Width) (a : Nat) : Word :=
  BitVec.ofNat 64 (s.mem.readLE a w.bytes)

/-- `MemWrite(a, W, v)` (00_scope R7). -/
def State.memWrite (s : State) (w : Width) (a : Nat) (v : Word) : State :=
  { s with mem := s.mem.writeLE a w.bytes v.toNat }

/-- `esp <- v` (10_state R17). -/
def State.setEsp (s : State) (v : Word) : State := { s with esp := v }

/-- `flags <- f` (45_cmp R140). -/
def State.setFlags (s : State) (f : Flags) : State := { s with flags := f }

/-- `out <- out ++ [v]` (47_printi_halt R155). -/
def State.emit (s : State) (v : Word) : State := { s with out := s.out ++ [v] }

/-- `ip <- (ip + v) mod 2^64`: by the length of an instruction or by the displacement of a taken
jump (10_state R15 [D20]). -/
def State.advance (s : State) (v : Word) : State := { s with ip := s.ip + v }

/-- `status <- Halted` (47_printi_halt R156). -/
def State.halt (s : State) : State := { s with status := .halted }

/-! ### Taking a fault -/

/-- `raise K(info)`: the status becomes Faulted, the record is set, nothing else changes
(60_exceptions R162, R166 [D25] [D27]). -/
def State.raise (s : State) (kind : FaultKind) (opc : Option (BitVec 5)) (info : FaultInfo) :
    State :=
  { s with
    status := .faulted kind
    faultRecord := some { kind := kind, ip := s.ip, opc := opc, info := info } }

/-- A fault raised by the instruction of an operation, its opcode field recorded
(60_exceptions R162). -/
def State.raiseIn (s : State) (op : Op) (kind : FaultKind) (info : FaultInfo) : State :=
  s.raise kind (some (s.cfg.opcode op)) info

/-! ### Reset with a bytecode -/

/-- VM construction (70_reset R190): the state right after reset of a machine with parameters `c`
(its `bytecodeLen` apart) and bytecode `b`. -/
def State.construct (c : Config) (b : List Byte) : State :=
  { State.reset with
    mem := Memory.writeBytes [] 0 b
    cfg := { c with bytecodeLen := b.length } }

end Sys2Proof.Machine
end

