-- ==== Sys2Proof/Machine/Operands.lean ====
section
/-! DEFINITION. Operand resolution, the bounds check, and reads and writes of a location at width `W`
(spec/40_execute_common.md R85 to R92; spec/20_memory.md R36, R37). -/

namespace Sys2Proof.Machine

/-! ### Values of `8·W` bits -/

/-- `trunc_W(v)` (00_scope R7). -/
def truncate (w : Width) (v : Word) : Word := (v.setWidth w.bits).setWidth 64

/-- `sext_64(v)` of a value of `8·W` bits (00_scope R7; 46_jumps R146 [D19]). -/
def signExtend (w : Width) (v : Word) : Word := (v.setWidth w.bits).signExtend 64

/-! ### Locations -/

/-- A location that can be written (40_execute_common R85). -/
inductive Place where
  /-- `Reg(i)`: the low `W` bytes of `x[i]`. -/
  | reg (i : RegIdx)
  /-- `Mem(a)`: the bytes `M[a .. a+W−1]`. -/
  | mem (a : Word)
  deriving DecidableEq, Repr

/-- A location of 40_execute_common R85: one that can be written, or a literal, which can not. -/
inductive Loc where
  | place (p : Place)
  /-- `Imm(v)`. -/
  | imm (v : Word)
  deriving DecidableEq, Repr

/-- `DstLoc` but for its bounds check (40_execute_common R86 [D13]). -/
def dstPlace (s : State) : Dst → Place
  | .reg d => .reg d
  | .memReg d => .mem (s.reg d)

/-- `SrcLoc` but for its bounds check (40_execute_common R87, R88 [D13]). -/
def srcLoc (s : State) : Src → Loc
  | .reg i => .place (.reg i)
  | .memReg i => .place (.mem (s.reg i))
  | .imm v => .imm v
  | .memImm v => .place (.mem v)

/-! ### The bounds check -/

/-- What `CheckData(a)` admits: the whole span below `MEM_LIMIT`, in unbounded integers
(20_memory R36 [D10]). -/
def admits (s : State) (w : Width) (a : Word) : Bool :=
  decide (a.toNat + w.bytes ≤ s.cfg.memLimit)

/-- The address `CheckData` refuses, if any. -/
def Place.refused (s : State) (w : Width) : Place → Option Word
  | .reg _ => none
  | .mem a => if admits s w a then none else some a

/-- The address `CheckData` refuses, if any. -/
def Loc.refused (s : State) (w : Width) : Loc → Option Word
  | .place p => p.refused s w
  | .imm _ => none

/-! ### Reading and writing a location -/

/-- `Load` of a place (40_execute_common R90 [D12]). -/
def Place.load (s : State) (w : Width) : Place → Word
  | .reg i => truncate w (s.reg i)
  | .mem a => s.memRead w a.toNat

/-- `Load` (40_execute_common R90). A literal is its own value, which the encoding keeps below
`2^(8·W)`; one that no encoding spells is cut down to that width (log 11). -/
def Loc.load (s : State) (w : Width) : Loc → Word
  | .place p => p.load s w
  | .imm v => truncate w v

/-- What a register holds after a write of `v` at width `W` (40_execute_common R91 [D11]). -/
def narrowWrite (mode : NarrowWrite) (w : Width) (old v : Word) : Word :=
  match mode with
  | .merge => (old >>> w.bits) <<< w.bits ||| truncate w v
  | .zeroExtend => truncate w v

/-- `Store` (40_execute_common R91). -/
def Place.store (s : State) (w : Width) (v : Word) : Place → State
  | .reg i => s.setReg i (narrowWrite s.cfg.narrowWrite w (s.reg i) v)
  | .mem a => s.memWrite w a.toNat (truncate w v)

/-! ### Resolving the operands of an instruction -/

/-- `MemoryAccessViolation(a)` (60_exceptions R160). -/
def accessViolation (op : Op) (s : State) (a : Word) : Result :=
  .next (s.raiseIn op .memoryAccessViolation (.address a))

/-- Resolves and checks the source operand, then goes on with its location
(40_execute_common R84, R87). -/
def withSrc (op : Op) (w : Width) (src : Src) (s : State) (k : Loc → Result) : Result :=
  match (srcLoc s src).refused s w with
  | some a => accessViolation op s a
  | none => k (srcLoc s src)

/-- Resolves and checks the destination, then the source, then goes on with both locations
(40_execute_common R84, R89; 60_exceptions R163 [D24]). -/
def withDstSrc (op : Op) (w : Width) (d : Dst) (src : Src) (s : State)
    (k : Place → Loc → Result) : Result :=
  match (dstPlace s d).refused s w with
  | some a => accessViolation op s a
  | none => withSrc op w src s (k (dstPlace s d))

/-- Resolves and checks a source operand that is to be written. A direct immediate is no location:
decode has refused the encoding, and the same fault is raised here for the term
(30_encoding R66 [D21]; log 10). -/
def withWritableSrc (op : Op) (w : Width) (src : Src) (s : State) (k : Place → Result) : Result :=
  withSrc op w src s fun
    | .place p => k p
    | .imm _ => .next (s.raiseIn op .invalidInstruction (.opcode (s.cfg.opcode op)))

/-- The advance past an instruction whose operand is `src` (10_state R15, 30_encoding R56). -/
def State.past (s : State) (w : Width) (src : Src) : State :=
  s.advance (BitVec.ofNat 64 (src.length w))

end Sys2Proof.Machine
end

