-- ==== Sys2Proof/Machine/Arithmetic.lean ====
section
/-! DEFINITION. add, sub, mul, div, mod, and, or, xor, shl, shr
(spec/41_arithmetic_bitwise.md R100 to R114). Operands arrive as values of `8·W` bits
(`Loc.load`), and the store cuts the result to `8·W` bits (`Place.store`). -/

namespace Sys2Proof.Machine

/-! ### The functions `f(a, b)` -/

/-- R101. -/
def sumOf (a b : Word) : Word := a + b

/-- R102. -/
def differenceOf (a b : Word) : Word := a - b

/-- R103: the low half of the product. -/
def productOf (a b : Word) : Word := a * b

/-- R104: unsigned floor division. -/
def quotientOf (a b : Word) : Word := a / b

/-- R105: the unsigned remainder. -/
def remainderOf (a b : Word) : Word := a % b

/-- R106. -/
def andOf (a b : Word) : Word := a &&& b

/-- R107. -/
def orOf (a b : Word) : Word := a ||| b

/-- R108. -/
def xorOf (a b : Word) : Word := a ^^^ b

/-- R109: `a * 2^b`, the count whole and not masked; 0 when it reaches the width (R112 [D15]). -/
def shiftedLeft (w : Width) (a b : Word) : Word :=
  if w.bits ≤ b.toNat then 0 else a <<< b.toNat

/-- R110: `a div 2^b`, logical; 0 when the count reaches the width (R112 [D15]). -/
def shiftedRight (w : Width) (a b : Word) : Word :=
  if w.bits ≤ b.toNat then 0 else a >>> b.toNat

/-! ### The family's template -/

/-- The template of R100 for the eight operations that no value faults. -/
def combine (op : Op) (f : Word → Word → Word) (w : Width) (d : Dst) (src : Src) (s : State) :
    Result :=
  withDstSrc op w d src s fun dl sl =>
    .next ((dl.store s w (f (dl.load s w) (sl.load s w))).past w src)

/-- The template of R100 for `div` and `mod`: a zero divisor faults before any write
(R113 [D14]). -/
def combineNonzero (op : Op) (f : Word → Word → Word) (w : Width) (d : Dst) (src : Src)
    (s : State) : Result :=
  withDstSrc op w d src s fun dl sl =>
    if sl.load s w = 0 then .next (s.raiseIn op .divideByZero .none)
    else .next ((dl.store s w (f (dl.load s w) (sl.load s w))).past w src)

/-! ### The instructions -/

/-- `add d, src` (R101). -/
def execAdd (w : Width) (d : Dst) (src : Src) (s : State) : Result :=
  combine .add sumOf w d src s

/-- `sub d, src` (R102). -/
def execSub (w : Width) (d : Dst) (src : Src) (s : State) : Result :=
  combine .sub differenceOf w d src s

/-- `mul d, src` (R103). -/
def execMul (w : Width) (d : Dst) (src : Src) (s : State) : Result :=
  combine .mul productOf w d src s

/-- `div d, src` (R104, R113). -/
def execDiv (w : Width) (d : Dst) (src : Src) (s : State) : Result :=
  combineNonzero .div quotientOf w d src s

/-- `mod d, src` (R105, R113). -/
def execMod (w : Width) (d : Dst) (src : Src) (s : State) : Result :=
  combineNonzero .mod remainderOf w d src s

/-- `and d, src` (R106). -/
def execAnd (w : Width) (d : Dst) (src : Src) (s : State) : Result :=
  combine .and andOf w d src s

/-- `or d, src` (R107). -/
def execOr (w : Width) (d : Dst) (src : Src) (s : State) : Result :=
  combine .or orOf w d src s

/-- `xor d, src` (R108). -/
def execXor (w : Width) (d : Dst) (src : Src) (s : State) : Result :=
  combine .xor xorOf w d src s

/-- `shl d, src` (R109, R112). -/
def execShl (w : Width) (d : Dst) (src : Src) (s : State) : Result :=
  combine .shl (shiftedLeft w) w d src s

/-- `shr d, src` (R110, R112). -/
def execShr (w : Width) (d : Dst) (src : Src) (s : State) : Result :=
  combine .shr (shiftedRight w) w d src s

end Sys2Proof.Machine
end

