-- ==== Sys2Proof/Machine/Flags.lean ====
section
/-! DEFINITION. The flags register: what `cmp` sets it to, its number, and the condition of each jump
(spec/10_state.md R18, R19; spec/45_cmp.md R140, R143; spec/46_jumps.md R145). -/

namespace Sys2Proof.Machine

/-- The numeric contents of the 64-bit register, which the host alone can see
(10_state R18 [D17]). -/
def Flags.toWord : Flags → Word
  | .none => 0
  | .zero => 1
  | .greater => 2
  | .smaller => 3

/-- What `cmp` sets: the unsigned relation of the first operand to the second
(45_cmp R140, R141). -/
def compareFlags (a b : Word) : Flags :=
  if a = b then .zero else if b < a then .greater else .smaller

/-- `jz` is taken (46_jumps R145). -/
def takesJz (f : Flags) : Bool := decide (f = .zero)

/-- `jnz` is taken, at the reset value `none` too (46_jumps R145 [D18]). -/
def takesJnz (f : Flags) : Bool := decide (f ≠ .zero)

/-- `jg` is taken (46_jumps R145). -/
def takesJg (f : Flags) : Bool := decide (f = .greater)

/-- `js` is taken (46_jumps R145). -/
def takesJs (f : Flags) : Bool := decide (f = .smaller)

/-- The fault kinds' codes, which the host alone can see (60_exceptions R160 [D26]). -/
def FaultKind.code : FaultKind → Nat
  | .ipOutOfBounds => 1
  | .memoryAccessViolation => 2
  | .stackOverflow => 3
  | .stackUnderflow => 4
  | .invalidInstruction => 5
  | .divideByZero => 6

end Sys2Proof.Machine
end

