-- ==== Sys2Proof/Machine/Compare.lean ====
section
/-! DEFINITION. cmp (spec/45_cmp.md R140 to R143): the only writer of flags. -/

namespace Sys2Proof.Machine

/-- `cmp d, src` (R140): unsigned, at width `W`; nothing but `flags` is written. -/
def execCmp (w : Width) (d : Dst) (src : Src) (s : State) : Result :=
  withDstSrc .cmp w d src s fun dl sl =>
    .next ((s.setFlags (compareFlags (dl.load s w) (sl.load s w))).past w src)

end Sys2Proof.Machine
end

