-- ==== Sys2Proof/Machine/IncDec.lean ====
section
/-! DEFINITION. inc and dec (spec/43_inc_dec.md R125 to R127): the one operand is read and
written. -/

namespace Sys2Proof.Machine

/-- The shared shape of R125 and R126: adjust the source location in place. -/
def adjust (op : Op) (f : Word → Word) (w : Width) (src : Src) (s : State) : Result :=
  withWritableSrc op w src s fun p => .next ((p.store s w (f (p.load s w))).past w src)

/-- `inc src` (R125). -/
def execInc (w : Width) (src : Src) (s : State) : Result :=
  adjust .inc (fun v => v + 1) w src s

/-- `dec src` (R126). -/
def execDec (w : Width) (src : Src) (s : State) : Result :=
  adjust .dec (fun v => v - 1) w src s

end Sys2Proof.Machine
end

