-- ==== Sys2Proof/Machine/Jumps.lean ====
section
/-! DEFINITION. jz, jnz, jg, js (spec/46_jumps.md R145 to R152): conditional relative jumps. -/

namespace Sys2Proof.Machine

/-- Every jump (R146): the operand is resolved and checked whether or not the jump is taken; a taken
jump adds the sign-extended source to the jump's own address; the target is not checked. -/
def jumpIf (op : Op) (taken : Flags → Bool) (w : Width) (src : Src) (s : State) : Result :=
  withSrc op w src s fun sl =>
    if taken s.flags then .next (s.advance (signExtend w (sl.load s w)))
    else .next (s.past w src)

/-- `jz src` (R147). -/
def execJz (w : Width) (src : Src) (s : State) : Result := jumpIf .jz takesJz w src s

/-- `jnz src` (R148). -/
def execJnz (w : Width) (src : Src) (s : State) : Result := jumpIf .jnz takesJnz w src s

/-- `jg src` (R149). -/
def execJg (w : Width) (src : Src) (s : State) : Result := jumpIf .jg takesJg w src s

/-- `js src` (R150). -/
def execJs (w : Width) (src : Src) (s : State) : Result := jumpIf .js takesJs w src s

end Sys2Proof.Machine
end

