-- ==== Sys2Proof/Machine/Move.lean ====
section
/-! DEFINITION. mov (spec/42_mov.md R120 to R122): the only load, store and copy of the ISA. -/

namespace Sys2Proof.Machine

/-- `mov d, src` (R120): the destination's old contents are not read. -/
def execMov (w : Width) (d : Dst) (src : Src) (s : State) : Result :=
  withDstSrc .mov w d src s fun dl sl =>
    .next ((dl.store s w (sl.load s w)).past w src)

end Sys2Proof.Machine
end

