-- ==== Sys2Proof/Machine/Stack.lean ====
section
/-! DEFINITION. push and pop (spec/44_stack.md R130 to R136): the stack grows toward higher offsets of
its segment; no width is recorded (R135). -/

namespace Sys2Proof.Machine

/-- `push src` (R131): the bounds check of the source, then the overflow check, then the write at
`STACK_BASE + esp`, then `esp`. -/
def execPush (w : Width) (src : Src) (s : State) : Result :=
  withSrc .push w src s fun sl =>
    if s.cfg.stackSize < s.esp.toNat + w.bytes then
      .next (s.raiseIn .push .stackOverflow (.stack s.esp w))
    else
      .next (((s.memWrite w (s.cfg.stackBase + s.esp.toNat) (sl.load s w)).setEsp
        (s.esp + BitVec.ofNat 64 w.bytes)).past w src)

/-- `pop src` (R133): the bounds check of the destination, then the underflow check, then the read
at `STACK_BASE + esp − W`, then `esp` and the store. A read of offsets at or above `MEM_TOTAL`, which
takes an `esp` that no run reaches (10_state R17), stops the machine (log 5). -/
def execPop (w : Width) (src : Src) (s : State) : Result :=
  withWritableSrc .pop w src s fun p =>
    if s.esp.toNat < w.bytes then
      .next (s.raiseIn .pop .stackUnderflow (.stack s.esp w))
    else if s.cfg.memTotal < s.cfg.stackBase + s.esp.toNat then .fault .beyondMemory
    else
      .next (((p.store s w (s.memRead w (s.cfg.stackBase + s.esp.toNat - w.bytes))).setEsp
        (s.esp - BitVec.ofNat 64 w.bytes)).past w src)

end Sys2Proof.Machine
end

