-- ==== Sys2Proof/Machine/System.lean ====
section
/-! DEFINITION. printi and halt (spec/47_printi_halt.md R155 to R157): the output stream and the
successful end of a run. -/

namespace Sys2Proof.Machine

/-- `printi src` (R155): the unsigned source value is appended to `out`. -/
def execPrinti (w : Width) (src : Src) (s : State) : Result :=
  withSrc .printi w src s fun sl => .next ((s.emit (sl.load s w)).past w src)

/-- `halt` (R156): `ip` is not advanced. -/
def execHalt (s : State) : Result := .next s.halt

end Sys2Proof.Machine
end

