-- ==== Sys2Proof/Machine/Dispatch.lean ====
section
/-! DEFINITION. The meaning of each instruction (spec/40_execute_common.md R84): one arm per
constructor. -/

namespace Sys2Proof.Machine

def exec (i : Instr) (s : State) : Host.Outcome State Fault Refusal :=
  match i with
  | .add w d src => Sys2Proof.Machine.execAdd w d src s
  | .sub w d src => Sys2Proof.Machine.execSub w d src s
  | .mul w d src => Sys2Proof.Machine.execMul w d src s
  | .div w d src => Sys2Proof.Machine.execDiv w d src s
  | .mod w d src => Sys2Proof.Machine.execMod w d src s
  | .and w d src => Sys2Proof.Machine.execAnd w d src s
  | .or w d src => Sys2Proof.Machine.execOr w d src s
  | .xor w d src => Sys2Proof.Machine.execXor w d src s
  | .shl w d src => Sys2Proof.Machine.execShl w d src s
  | .shr w d src => Sys2Proof.Machine.execShr w d src s
  | .mov w d src => Sys2Proof.Machine.execMov w d src s
  | .inc w src => Sys2Proof.Machine.execInc w src s
  | .dec w src => Sys2Proof.Machine.execDec w src s
  | .push w src => Sys2Proof.Machine.execPush w src s
  | .pop w src => Sys2Proof.Machine.execPop w src s
  | .cmp w d src => Sys2Proof.Machine.execCmp w d src s
  | .jz w src => Sys2Proof.Machine.execJz w src s
  | .jnz w src => Sys2Proof.Machine.execJnz w src s
  | .jg w src => Sys2Proof.Machine.execJg w src s
  | .js w src => Sys2Proof.Machine.execJs w src s
  | .printi w src => Sys2Proof.Machine.execPrinti w src s
  | .halt => Sys2Proof.Machine.execHalt s

end Sys2Proof.Machine
end

