-- ==== Sys2Proof/Machine/Fetch.lean ====
section
/-! DEFINITION. The fetch and decode of one step (spec/40_execute_common.md R80 to R83), up to the
instruction or to what the step answers without one; and the placing of an instruction where the next
step fetches (log 2). -/

namespace Sys2Proof.Machine

/-- The bytes from `ip` on that the longest instruction could take, as far as `M` goes
(40_execute_common R82; 20_memory R39). The decoder looks at the first `len` of them only. -/
def State.fetchBytes (s : State) : List Byte :=
  s.mem.bytes s.ip.toNat (min maxLength (s.cfg.memTotal - s.ip.toNat))

/-- The instruction the step is to execute, or the step's answer if there is none: a terminal state
has no step (R80 [D33]), `ip` is checked before byte 0 is read (R81 [D7]), and bytes that are no
instruction fault (R83). -/
def State.fetch (s : State) : Except Result Instr :=
  match s.status with
  | .halted => .error (.fault .haltedHasNoStep)
  | .faulted _ => .error (.fault .faultedHasNoStep)
  | .running =>
    if s.cfg.codeSize ≤ s.ip.toNat then
      .error (.next (s.raise .ipOutOfBounds none (.ip s.ip)))
    else
      match decode s.cfg s.fetchBytes with
      | .ok (i, _) => .ok i
      | .error (.unknownOpcode opc) | .error (.immediateDestination opc) =>
        .error (.next (s.raise .invalidInstruction (some opc) (.opcode opc)))
      | .error .truncated => .error (.fault .beyondMemory)

/-- The state with some bytes placed where the next step fetches: at `ip`, the code segment
stretched to cover them if `ip` lies outside it, and the machine Running (log 2). -/
def State.placeAtIp (s : State) (bs : List Byte) : State :=
  { s with
    mem := s.mem.writeBytes s.ip.toNat bs
    status := .running
    faultRecord := none
    cfg :=
      if s.ip.toNat < s.cfg.codeSize then s.cfg
      else { s.cfg with bytecodeLen := s.ip.toNat + bs.length } }

end Sys2Proof.Machine
end

