-- ==== Sys2Proof/Machine/Step.lean ====
section
/-! DEFINITION. One step (spec/40_execute_common.md R80): fetch and decode, then execute. -/

namespace Sys2Proof.Machine

/-- One step of the machine (40_execute_common R80, R84). -/
def step (s : State) : Host.Outcome State Fault Refusal :=
  match s.fetch with
  | .ok i => exec i s
  | .error answer => answer

/-- The state with an instruction, its bits numbered as the opcode table numbers them, placed where
the next step fetches (log 2). -/
def State.withFetchWord (s : State) (nbits w : Nat) : State := s.placeAtIp (tableBytes nbits w)

end Sys2Proof.Machine
end

