-- ==== Sys2Proof/WellFormed.lean ====
section
/-! DEFINITION. The instructions that some encoding spells: an immediate fits in the `8·W` bits the
encoding has for it (spec/30_encoding.md R55), and `inc`, `dec`, `pop` have a location to write
(R66). The form the assembler emits (R72, R73) is a second, narrower check. -/

namespace Sys2Proof

/-- A literal fits in the `W` immediate bytes (30_encoding R55). -/
def Src.fits (w : Width) : Src → Bool
  | .reg _ | .memReg _ => true
  | .imm v | .memImm v => decide (v.toNat < 2 ^ w.bits)

/-- The operand names a location that can be written, so it is no direct immediate
(30_encoding R66). -/
def Src.writable : Src → Bool
  | .imm _ => false
  | .reg _ | .memReg _ | .memImm _ => true

/-- The well-formed instructions: exactly those the decoder can give. -/
def Instr.wf : Instr → Bool
  | .add w _ src | .sub w _ src | .mul w _ src | .div w _ src | .mod w _ src
  | .and w _ src | .or w _ src | .xor w _ src | .shl w _ src | .shr w _ src
  | .mov w _ src | .cmp w _ src => src.fits w
  | .inc w src | .dec w src | .pop w src => src.fits w && src.writable
  | .push w src | .jz w src | .jnz w src | .jg w src | .js w src | .printi w src => src.fits w
  | .halt => true

/-- The narrowest width whose unsigned range holds the literal (30_encoding R72). -/
def minimalWidth (v : Word) : Width :=
  if v.toNat < 2 ^ 8 then .byte
  else if v.toNat < 2 ^ 16 then .short
  else if v.toNat < 2 ^ 32 then .dword
  else .qword

/-- The width the assembler encodes an operand at: qword for a register, the narrowest for a literal
(30_encoding R73). -/
def Src.assembledWidth : Src → Width
  | .reg _ | .memReg _ => .qword
  | .imm v | .memImm v => minimalWidth v

/-- The instructions the assembler emits (30_encoding R73): the width is the one it chooses from the
source operand. It does not refuse `inc 5` (R66), so such a form is assembled and yet not
well-formed. -/
def Instr.assembled : Instr → Bool
  | .add w _ src | .sub w _ src | .mul w _ src | .div w _ src | .mod w _ src
  | .and w _ src | .or w _ src | .xor w _ src | .shl w _ src | .shr w _ src
  | .mov w _ src | .cmp w _ src => decide (w = src.assembledWidth)
  | .inc w src | .dec w src | .pop w src => decide (w = src.assembledWidth)
  | .push w src | .jz w src | .jnz w src | .jg w src | .js w src | .printi w src =>
    decide (w = src.assembledWidth)
  | .halt => true

end Sys2Proof
end

