-- ==== Sys2Proof/Safety.lean ====
section
/-! DEFINITION. The terms claims are stated in: the invariant of the machine's states, and the spec's
own vocabulary (values, addresses, spans, frames, faults, formats) written over single registers and
single bytes in unbounded integers, independently of the operations that the meanings are built
from. -/

namespace Sys2Proof.Machine

/-! ### The invariant -/

/-- The record stands beside Faulted, names its kind and the final `ip`, and is absent otherwise
(10_state R21; 60_exceptions R162). -/
def State.recordMatches (s : State) : Bool :=
  match s.status, s.faultRecord with
  | .faulted kind, some r => decide (r.kind = kind) && decide (r.ip = s.ip)
  | .faulted _, none => false
  | .running, r | .halted, r => decide (r = none)

/-- The invariant: the parameters meet 00_scope R5, memory is canonical and no byte of the guard area
or above it is written (20_memory R35), `esp` stays in the stack segment (10_state R17), and the
fault record fits the status. -/
abbrev State.Inv (s : State) : Prop :=
  s.cfg.WF ∧ s.mem.wf ∧ (∀ cell ∈ s.mem, cell.1 < s.cfg.memLimit) ∧
    s.esp.toNat ≤ s.cfg.stackSize ∧ s.recordMatches = true

/-! ### Values -/

/-- `M[a] + 2^8·M[a+1] + … + 2^(8(n−1))·M[a+n−1]` (00_scope R7). -/
def State.littleEndian (s : State) (a n : Nat) : Nat :=
  ∑ k ∈ Finset.range n, 2 ^ (8 * k) * (s.byte (a + k)).toNat

/-- The unsigned value of `8·W` bits that a place holds (40_execute_common R90). -/
def Place.value (s : State) (w : Width) : Place → Nat
  | .reg i => (s.reg i).toNat % 2 ^ w.bits
  | .mem a => s.littleEndian a.toNat w.bytes

/-- The unsigned value a location holds (40_execute_common R90). -/
def Loc.value (s : State) (w : Width) : Loc → Nat
  | .place p => p.value s w
  | .imm v => v.toNat

/-- The value of the destination operand before the step. -/
def dstValue (s : State) (w : Width) (d : Dst) : Nat := (dstPlace s d).value s w

/-- The value of the source operand before the step. -/
def srcValue (s : State) (w : Width) (src : Src) : Nat := (srcLoc s src).value s w

/-- The two's-complement reading of a value of `8·W` bits (00_scope R7; 46_jumps R146). -/
def signedValue (w : Width) (v : Nat) : Int :=
  if v < 2 ^ (w.bits - 1) then (v : Int) else (v : Int) - 2 ^ w.bits

/-! ### Addresses -/

/-- The address a destination operand resolves to when it is memory-indirect
(40_execute_common R86). -/
def dstAddress (s : State) : Dst → Option Word
  | .reg _ => none
  | .memReg d => some (s.reg d)

/-- The address a source operand resolves to when it is memory-indirect
(40_execute_common R87). -/
def srcAddress (s : State) : Src → Option Word
  | .reg _ | .imm _ => none
  | .memReg i => some (s.reg i)
  | .memImm v => some v

/-- `a + W ≤ MEM_LIMIT` where there is an address (20_memory R36). -/
def inBounds (s : State) (w : Width) (address : Option Word) : Bool :=
  address.all fun a => decide (a.toNat + w.bytes ≤ s.cfg.memLimit)

/-- The destination operand of an arity-2 instruction. -/
def instrDst : Instr → Option Dst
  | .add _ d _ | .sub _ d _ | .mul _ d _ | .div _ d _ | .mod _ d _ | .and _ d _ | .or _ d _
  | .xor _ d _ | .shl _ d _ | .shr _ d _ | .mov _ d _ | .cmp _ d _ => some d
  | .inc .. | .dec .. | .push .. | .pop .. | .jz .. | .jnz .. | .jg .. | .js .. | .printi ..
  | .halt => none

/-- The width and source operand of an arity-1 or arity-2 instruction. -/
def instrSrc : Instr → Option (Width × Src)
  | .add w _ src | .sub w _ src | .mul w _ src | .div w _ src | .mod w _ src | .and w _ src
  | .or w _ src | .xor w _ src | .shl w _ src | .shr w _ src | .mov w _ src | .cmp w _ src
  | .inc w src | .dec w src | .push w src | .pop w src | .jz w src | .jnz w src | .jg w src
  | .js w src | .printi w src => some (w, src)
  | .halt => none

/-- The length of an instruction in bytes, by the table of 30_encoding R56. -/
def instrLength (i : Instr) : Nat :=
  match instrSrc i with
  | none => 1
  | some (_, .reg _) | some (_, .memReg _) => 2
  | some (w, .imm _) | some (w, .memImm _) => 2 + w.bytes

/-! ### What an instruction may write -/

/-- The register an instruction writes: the direct destination of an arity-2 instruction that has a
result, the direct operand of `inc`, `dec`, `pop` (10_state R13; 40_execute_common R93). -/
def registerWritten : Instr → Option RegIdx
  | .add _ (.reg d) _ | .sub _ (.reg d) _ | .mul _ (.reg d) _ | .div _ (.reg d) _
  | .mod _ (.reg d) _ | .and _ (.reg d) _ | .or _ (.reg d) _ | .xor _ (.reg d) _
  | .shl _ (.reg d) _ | .shr _ (.reg d) _ | .mov _ (.reg d) _ => some d
  | .inc _ (.reg i) | .dec _ (.reg i) | .pop _ (.reg i) => some i
  | _ => none

/-- Where an instruction stores to memory, as a first offset and a number of bytes: the memory
destination of an arity-2 instruction that has a result, the memory operand of `inc`, `dec`, `pop`,
the top of the stack for `push` (40_execute_common R93). -/
def bytesWritten (s : State) : Instr → Option (Nat × Nat)
  | .add w (.memReg d) _ | .sub w (.memReg d) _ | .mul w (.memReg d) _ | .div w (.memReg d) _
  | .mod w (.memReg d) _ | .and w (.memReg d) _ | .or w (.memReg d) _ | .xor w (.memReg d) _
  | .shl w (.memReg d) _ | .shr w (.memReg d) _ | .mov w (.memReg d) _ =>
    some ((s.reg d).toNat, w.bytes)
  | .inc w (.memReg i) | .dec w (.memReg i) | .pop w (.memReg i) =>
    some ((s.reg i).toNat, w.bytes)
  | .inc w (.memImm v) | .dec w (.memImm v) | .pop w (.memImm v) => some (v.toNat, w.bytes)
  | .push w _ => some (s.cfg.stackBase + s.esp.toNat, w.bytes)
  | _ => none

/-- The faults an operation can raise once it is decoded, and, for `inc`, `dec` and `pop`, the one
that decode raises for their direct immediate (60_exceptions R161). -/
def possibleFaults : Op → List FaultKind
  | .add | .sub | .mul | .and | .or | .xor | .shl | .shr | .mov | .cmp => [.memoryAccessViolation]
  | .div | .mod => [.memoryAccessViolation, .divideByZero]
  | .inc | .dec => [.invalidInstruction, .memoryAccessViolation]
  | .push => [.memoryAccessViolation, .stackOverflow]
  | .pop => [.invalidInstruction, .memoryAccessViolation, .stackUnderflow]
  | .jz | .jnz | .jg | .js | .printi => [.memoryAccessViolation]
  | .halt => []

/-! ### Effects -/

/-- `t` differs from `s`, in registers and memory, by the value `v` of `8·W` bits stored at the place
and by nothing else: one register with its upper bytes kept or cleared as `REG_NARROW_WRITE` says
(40_execute_common R91), or the `W` bytes at the address, little-endian. -/
def Place.Holds (p : Place) (w : Width) (v : Nat) (s t : State) : Prop :=
  match p with
  | .reg i =>
    (t.reg i).toNat =
        (match s.cfg.narrowWrite with
          | .merge => (s.reg i).toNat / 2 ^ w.bits * 2 ^ w.bits + v
          | .zeroExtend => v) ∧
      (∀ j, j ≠ i → t.reg j = s.reg j) ∧ ∀ b, t.byte b = s.byte b
  | .mem a =>
    (∀ k, k < w.bytes → (t.byte (a.toNat + k)).toNat = v / 2 ^ (8 * k) % 256) ∧
      (∀ b, b < a.toNat ∨ a.toNat + w.bytes ≤ b → t.byte b = s.byte b) ∧ ∀ j, t.reg j = s.reg j

/-- `ip` has moved past an instruction of `len` bytes (10_state R15). -/
def MovedPast (len : Nat) (s t : State) : Prop := t.ip.toNat = (s.ip.toNat + len) % 2 ^ 64

/-- `flags`, `out`, `status`, the fault record and the parameters are unchanged. -/
def ControlKept (s t : State) : Prop :=
  t.flags = s.flags ∧ t.out = s.out ∧ t.status = s.status ∧ t.faultRecord = s.faultRecord ∧
    t.cfg = s.cfg

/-- The state after a fault: `s` but for the status and the record (60_exceptions R162, R166). -/
def faultOf (s : State) (kind : FaultKind) (opc : Option (BitVec 5)) (info : FaultInfo) : State :=
  { s with status := .faulted kind, faultRecord := some ⟨kind, s.ip, opc, info⟩ }

/-- Every memory-indirect operand that is out of bounds faults its instruction, the destination
before the source (20_memory R37; 60_exceptions R163). -/
def ArityTwoViolations (op : Op) (mk : Width → Dst → Src → Instr) : Prop :=
  ∀ (w : Width) (d : Dst) (src : Src) (s : State) (a : Word),
    (dstAddress s d = some a → s.cfg.memLimit < a.toNat + w.bytes →
      exec (mk w d src) s =
        .next (faultOf s .memoryAccessViolation (some (s.cfg.opcode op)) (.address a))) ∧
    (inBounds s w (dstAddress s d) = true → srcAddress s src = some a →
      s.cfg.memLimit < a.toNat + w.bytes →
      exec (mk w d src) s =
        .next (faultOf s .memoryAccessViolation (some (s.cfg.opcode op)) (.address a)))

/-- A memory-indirect source operand out of bounds faults its instruction (20_memory R36). -/
def ArityOneViolations (op : Op) (mk : Width → Src → Instr) : Prop :=
  ∀ (w : Width) (src : Src) (s : State) (a : Word),
    srcAddress s src = some a → s.cfg.memLimit < a.toNat + w.bytes →
    exec (mk w src) s =
      .next (faultOf s .memoryAccessViolation (some (s.cfg.opcode op)) (.address a))

/-! ### Formats -/

/-- The number of the width selector (30_encoding R53). -/
def selectorNumber : Width → Nat
  | .byte => 0
  | .short => 1
  | .dword => 2
  | .qword => 3

/-- Byte 1's bits `t` and `sm` as `128·t + 16·sm`, the source register's number, and the immediate
(30_encoding R53, R55). -/
def sourceBits : Src → Nat × Nat × Option Word
  | .reg i => (0, i.toNat, none)
  | .memReg i => (16, i.toNat, none)
  | .imm v => (128, 0, some v)
  | .memImm v => (128 + 16, 0, some v)

/-- The `W` little-endian bytes of an immediate (30_encoding R55). -/
def immediateBytes (w : Width) : Option Word → List Byte
  | none => []
  | some v => (List.range w.bytes).map fun k => BitVec.ofNat 8 (v.toNat / 2 ^ (8 * k))

/-- The bytes of formats `A1R` and `A1I` (30_encoding R57), the opcode a number. -/
def arityOneBytes (opc : Nat) (w : Width) (src : Src) : List Byte :=
  let (ts, s, v) := sourceBits src
  [BitVec.ofNat 8 opc, BitVec.ofNat 8 (ts + 32 * selectorNumber w + s)] ++ immediateBytes w v

/-- The bytes of formats `A2R` and `A2I` (30_encoding R57), the opcode a number. -/
def arityTwoBytes (opc : Nat) (w : Width) (d : Dst) (src : Src) : List Byte :=
  let (ts, s, v) := sourceBits src
  let (dn, dm) : Nat × Nat := match d with
    | .reg i => (i.toNat, 0)
    | .memReg i => (i.toNat, 8)
  [BitVec.ofNat 8 (32 * dn + opc), BitVec.ofNat 8 (ts + 32 * selectorNumber w + dm + s)]
    ++ immediateBytes w v

/-- Under the default opcode map, the instructions of an arity-1 operation are the words of formats
`A1R` and `A1I` with this opcode: the encoder writes them and the decoder reads them, whatever
follows. -/
def ArityOneWords (opc : Nat) (mk : Width → Src → Instr) : Prop :=
  ∀ (w : Width) (src : Src) (rest : List Byte), (mk w src).wf = true →
    encode Config.default (mk w src) = arityOneBytes opc w src ∧
      decode Config.default (arityOneBytes opc w src ++ rest) = .ok (mk w src, rest)

/-- Under the default opcode map, the instructions of an arity-2 operation are the words of formats
`A2R` and `A2I` with this opcode. -/
def ArityTwoWords (opc : Nat) (mk : Width → Dst → Src → Instr) : Prop :=
  ∀ (w : Width) (d : Dst) (src : Src) (rest : List Byte), (mk w d src).wf = true →
    encode Config.default (mk w d src) = arityTwoBytes opc w d src ∧
      decode Config.default (arityTwoBytes opc w d src ++ rest) = .ok (mk w d src, rest)

/-- The bits the format of `i` ignores are zero in its bytes (30_encoding R64). -/
def ignoredBitsZero (i : Instr) (bytes : List Byte) : Prop :=
  (instrDst i = none → (bytes.getD 0 0).toNat / 32 = 0) ∧
  (instrDst i = none → instrSrc i ≠ none → (bytes.getD 1 0).toNat / 8 % 2 = 0) ∧
  (instrSrc i ≠ none → (bytes.getD 1 0).toNat / 128 = 1 → (bytes.getD 1 0).toNat % 8 = 0)

end Sys2Proof.Machine
end

