-- ==== Sys2Proof/Certificates/Slice0/Obligations.lean ====
section
/-! DEFINITION. The obligations of NanoVM CORE, from the numbered rules of spec/. Their vocabulary is
that of Sys2Proof/Safety.lean.

The statements about one instruction share these terms, each of which follows a rule of its own: an
operand's place and value (40_execute_common R85 to R90, with the spec's decisions D12 and D13), what
it is to store there (R91, at both values of `REG_NARROW_WRITE`, decision D11), what is in bounds
(20_memory R36, decision D10), and the words of the encoding under the default opcode numbers
(30_encoding R57, R61, decision D2). -/

open Sys2Proof Sys2Proof.Machine

/-! ### Encoding -/

/-- 30_encoding R68: encoding then decoding gives back the instruction, whatever bytes follow and
under every injective opcode map; decoding gives a well-formed instruction; and decoding then encoding
gives back the bytes when the ignored bits were zero. -/
def Obligations.EncodingAndDecodingAgree : Prop :=
  (∀ (c : Config) (i : Instr) (rest : List Byte), c.WF → i.wf = true →
      decode c (encode c i ++ rest) = .ok (i, rest)) ∧
    ∀ (c : Config) (i : Instr) (bytes rest : List Byte), decode c bytes = .ok (i, rest) →
      i.wf = true ∧ (ignoredBitsZero i bytes → encode c i ++ rest = bytes)

/-- 30_encoding R51 to R55, R60: which bits of bytes 0 and 1 are the opcode, the destination and
source registers, the source type, the width and the two indirection flags, and how the immediate
bytes spell the immediate; for every operation of each arity. The bits a form does not use may have
any value, which is the spec's decision D22 (R64; log 9). -/
def Obligations.DecodeReadsTheFields : Prop :=
  ∀ (c : Config) (op : Op) (b0 b1 : Byte) (w : Width) (d r : RegIdx) (rest : List Byte), c.WF →
    b0.toNat % 32 = (c.opcode op).toNat → b0.toNat / 32 = d.toNat →
    w.bytes = 2 ^ (b1.toNat / 32 % 4) → b1.toNat % 8 = r.toNat →
    let dst := if b1.toNat / 8 % 2 = 1 then Dst.memReg d else Dst.reg d
    (∀ i, op.shape = .arity0 i → decode c (b0 :: rest) = .ok (i, rest)) ∧
    (b1.toNat / 128 = 0 →
      let src := if b1.toNat / 16 % 2 = 1 then Src.memReg r else Src.reg r
      (∀ mk writes, op.shape = .arity1 mk writes →
        decode c (b0 :: b1 :: rest) = .ok (mk w src, rest)) ∧
      (∀ mk, op.shape = .arity2 mk →
        decode c (b0 :: b1 :: rest) = .ok (mk w dst src, rest))) ∧
    (b1.toNat / 128 = 1 → ∀ (bytes : List Byte) (v : Word), bytes.length = w.bytes →
      v.toNat = ∑ k ∈ Finset.range w.bytes, 2 ^ (8 * k) * (bytes.getD k 0).toNat →
      let src := if b1.toNat / 16 % 2 = 1 then Src.memImm v else Src.imm v
      (∀ mk writes, op.shape = .arity1 mk writes → (writes = true → b1.toNat / 16 % 2 = 1) →
        decode c (b0 :: b1 :: (bytes ++ rest)) = .ok (mk w src, rest)) ∧
      (∀ mk, op.shape = .arity2 mk →
        decode c (b0 :: b1 :: (bytes ++ rest)) = .ok (mk w dst src, rest)))

/-- 30_encoding R64, with the spec's decision D22 that ignored bits have no effect: two byte strings
that differ only in bits the format ignores decode alike. -/
def Obligations.IgnoredBitsHaveNoEffect : Prop :=
  ∀ (c : Config) (op : Op) (b0 b0' b1 b1' : Byte) (rest : List Byte), c.WF →
    b0.toNat % 32 = (c.opcode op).toNat → b0'.toNat % 32 = (c.opcode op).toNat →
    (∀ i, op.shape = .arity0 i → decode c (b0 :: rest) = decode c (b0' :: rest)) ∧
    (∀ mk writes, op.shape = .arity1 mk writes → b1.toNat / 16 = b1'.toNat / 16 →
      (b1.toNat / 128 = 0 → b1.toNat % 8 = b1'.toNat % 8) →
      decode c (b0 :: b1 :: rest) = decode c (b0' :: b1' :: rest)) ∧
    (∀ mk, op.shape = .arity2 mk → b0.toNat / 32 = b0'.toNat / 32 →
      b1.toNat / 8 = b1'.toNat / 8 → (b1.toNat / 128 = 0 → b1.toNat % 8 = b1'.toNat % 8) →
      decode c (b0 :: b1 :: rest) = decode c (b0' :: b1' :: rest))

/-- 30_encoding R56: 1 byte for arity 0, 2 for a register source, `2 + W` for an immediate source,
under every opcode map. -/
def Obligations.EncodedLengthIsTheTables : Prop :=
  ∀ (c : Config) (i : Instr), (encode c i).length = instrLength i

/-- Words written out bit by bit from 30_encoding R57 under the default opcode map (whose numbers are
the spec's decision D2) decode to the instructions they stand for, one or more of every family. -/
def Obligations.SampleWordsDecode : Prop :=
  decode Config.default [0b00000000, 0b10000000, 5] = .ok (.add .byte (.reg 0) (.imm 5), []) ∧
  decode Config.default [0b10000111, 0b01101100] = .ok (.xor .qword (.memReg 4) (.reg 4), []) ∧
  decode Config.default [0b01001010, 0b10101000, 0x34, 0x12] =
    .ok (.mov .short (.memReg 2) (.imm 0x1234), []) ∧
  decode Config.default [0b00001100, 0b01110101] = .ok (.dec .qword (.memReg 5), []) ∧
  decode Config.default [0b00001101, 0b10110000, 0x00, 0x10] =
    .ok (.push .short (.memImm 0x1000), []) ∧
  decode Config.default [0b01101111, 0b10011000, 0x10] =
    .ok (.cmp .byte (.memReg 3) (.memImm 0x10), []) ∧
  decode Config.default [0b00010001, 0b01100010] = .ok (.jnz .qword (.reg 2), []) ∧
  decode Config.default [0b11110100, 0b01101111] = .ok (.printi .qword (.reg 7), []) ∧
  decode Config.default [0b11110101] = .ok (.halt, [])

/-- 30_encoding R72 [D32]: the width the assembler gives a literal is the narrowest that holds it. -/
def Obligations.AssembledLiteralHasTheNarrowestWidth : Prop :=
  ∀ v : Word, v.toNat < 2 ^ (minimalWidth v).bits ∧
    ∀ w : Width, v.toNat < 2 ^ w.bits → (minimalWidth v).bytes ≤ w.bytes

/-! ### Reset -/

/-- 10_state R26 for the machine with the empty bytecode and the default parameters: registers, `ip`,
`esp`, every byte of memory and the stream are zero or empty, flags are none, no fault is recorded,
and the status is Running (the last by the spec's decision D29, the stream by D28; the choice of the
empty bytecode is log 2's). -/
def Obligations.ResetStateHasTheTablesValues : Prop :=
  (∀ i, State.reset.reg i = 0) ∧ State.reset.ip = 0 ∧ State.reset.esp = 0 ∧
    State.reset.flags = .none ∧ (∀ a, State.reset.byte a = 0) ∧ State.reset.status = .running ∧
    State.reset.faultRecord = none ∧ State.reset.out = [] ∧
    State.reset = State.construct Config.default []

/-- 70_reset R190, 10_state R26: construction with a bytecode computes the sizes, zeroes memory,
copies the bytecode to offset 0, clears the registers and starts Running with an empty stream and no
fault recorded. The code segment's least whole number of pages is the spec's decision D6 (R192), the empty
stream D28, the status D29 (log 23); that the parameters stand in the state is log 1's choice. -/
def Obligations.ConstructionLoadsTheBytecode : Prop :=
  ∀ (c : Config) (b : List Byte), 0 < c.pageSize →
    let s := State.construct c b
    (s.cfg.pageSize ∣ s.cfg.codeSize ∧ b.length ≤ s.cfg.codeSize ∧
      s.cfg.codeSize < b.length + s.cfg.pageSize ∧ s.cfg.stackBase = s.cfg.codeSize ∧
      s.cfg.memLimit = s.cfg.stackBase + s.cfg.pageSize ∧
      s.cfg.memTotal = s.cfg.memLimit + s.cfg.guardSize) ∧
    s.cfg = { c with bytecodeLen := b.length } ∧
    (∀ a, s.byte a = b.getD a 0) ∧
    (∀ i, s.reg i = 0) ∧ s.ip = 0 ∧ s.esp = 0 ∧ s.flags = .none ∧ s.status = .running ∧
    s.faultRecord = none ∧ s.out = []

/-- The invariant holds right after reset (10_state R17, R21, R26; 20_memory R35). -/
def Obligations.ResetMeetsTheInvariant : Prop := State.reset.Inv

/-- The invariant holds right after construction with any bytecode, under any parameters that
00_scope R5 admits. -/
def Obligations.ConstructionMeetsTheInvariant : Prop :=
  ∀ (c : Config) (b : List Byte), ({ c with bytecodeLen := b.length } : Config).WF →
    (State.construct c b).Inv

/-- 70_reset R192 [D6], 40_execute_common R81 [D7]: with the empty bytecode the first step faults
IpOutOfBounds, whatever the parameters. -/
def Obligations.EmptyBytecodeFaultsAtOnce : Prop :=
  ∀ c : Config,
    step (State.construct c []) =
      .next (faultOf (State.construct c []) .ipOutOfBounds none (.ip 0))

/-! ### The step -/

/-- Every step keeps the invariant: the parameters stay admissible, memory stays canonical with the
guard area unwritten, `esp` stays in the stack segment, and the record fits the status
(10_state R17, R21; 20_memory R35). -/
def Obligations.StepKeepsTheInvariant : Prop :=
  ∀ s t : State, s.Inv → step s = .next t → t.Inv

/-- 40_execute_common R80 to R84: a Running machine whose `ip` lies in the code segment and whose
bytes there decode to an instruction executes exactly that instruction; the step adds nothing. -/
def Obligations.StepRunsTheDecodedInstruction : Prop :=
  ∀ (s : State) (i : Instr) (rest : List Byte), s.status = .running →
    s.ip.toNat < s.cfg.codeSize → decode s.cfg s.fetchBytes = .ok (i, rest) → step s = exec i s

/-- 20_memory R39, R44; 40_execute_common R82: the instruction executed is the one whose bytes stand
in memory at `ip` now, over-read into the stack segment included. -/
def Obligations.StepRunsTheInstructionSpelledAtIp : Prop :=
  ∀ (s : State) (i : Instr), s.cfg.WF → s.status = .running → s.ip.toNat < s.cfg.codeSize →
    i.wf = true →
    (∀ (k : Nat) (b : Byte), (encode s.cfg i)[k]? = some b → s.byte (s.ip.toNat + k) = b) →
    step s = exec i s

/-- 40_execute_common R81 with the spec's decision D7: `ip ≥ CODE_SIZE` faults before any byte is
read, so the record holds no opcode. -/
def Obligations.StepFaultsIpOutOfBounds : Prop :=
  ∀ s : State, s.status = .running → s.cfg.codeSize ≤ s.ip.toNat →
    step s = .next (faultOf s .ipOutOfBounds none (.ip s.ip))

/-- 30_encoding R63: an opcode the map assigns to no operation faults InvalidInstruction, decided from
byte 0 alone. -/
def Obligations.UnassignedOpcodeFaults : Prop :=
  ∀ (s : State) (opc : BitVec 5), s.status = .running → s.ip.toNat < s.cfg.codeSize →
    (s.byte s.ip.toNat).toNat % 32 = opc.toNat → (∀ op, s.cfg.opcode op ≠ opc) →
    step s = .next (faultOf s .invalidInstruction (some opc) (.opcode opc))

/-- 30_encoding R66, the spec's decision D21: `inc`, `dec` and `pop` with a direct immediate fault
InvalidInstruction, decided from bytes 0 and 1. -/
def Obligations.DirectImmediateDestinationFaults : Prop :=
  ∀ (s : State) (op : Op), s.cfg.WF → s.status = .running → s.ip.toNat < s.cfg.codeSize →
    (op = .inc ∨ op = .dec ∨ op = .pop) →
    (s.byte s.ip.toNat).toNat % 32 = (s.cfg.opcode op).toNat →
    (s.byte (s.ip.toNat + 1)).toNat / 128 = 1 → (s.byte (s.ip.toNat + 1)).toNat / 16 % 2 = 0 →
    step s =
      .next (faultOf s .invalidInstruction (some (s.cfg.opcode op)) (.opcode (s.cfg.opcode op)))

/-- 60_exceptions R182: a Running machine always has a step, and a Halted or Faulted one has none. -/
def Obligations.ExactlyTheRunningMachineSteps : Prop :=
  ∀ s : State, s.Inv → ((∃ t, step s = .next t) ↔ s.status = .running)

/-- 60_exceptions R166 with the spec's decision D25, over all instructions: a step that ends Faulted
has changed the status and the record and nothing else, and the record holds the kind and the `ip`. -/
def Obligations.FaultingStepChangesNothingElse : Prop :=
  ∀ (s t : State) (kind : FaultKind), step s = .next t → t.status = .faulted kind →
    ∃ opc info, t = faultOf s kind opc info

/-- 60_exceptions R161 (derived there from the family rules): which kinds each instruction can raise,
and that one without a memory-indirect operand raises no MemoryAccessViolation. -/
def Obligations.InstructionsRaiseOnlyTheirFaults : Prop :=
  ∀ (i : Instr) (s t : State) (kind : FaultKind), s.status = .running → exec i s = .next t →
    t.status = .faulted kind →
    kind ∈ possibleFaults i.op ∧
      (kind = .memoryAccessViolation →
        (∃ d a, instrDst i = some d ∧ dstAddress s d = some a) ∨
          ∃ w src a, instrSrc i = some (w, src) ∧ srcAddress s src = some a)

/-- 10_state R21, 47_printi_halt R156: Halted is reached only by the halt opcode, and the step that
reaches it changes the status alone. -/
def Obligations.OnlyHaltHalts : Prop :=
  ∀ s t : State, step s = .next t → t.status = .halted →
    (s.byte s.ip.toNat).toNat % 32 = (s.cfg.opcode .halt).toNat ∧ t = { s with status := .halted }

/-- 00_scope R5, "configuration, fixed for a run" (10_state): no step changes the parameters. -/
def Obligations.StepKeepsTheParameters : Prop :=
  ∀ s t : State, step s = .next t → t.cfg = s.cfg

/-- 20_memory R35, "the guard area is never written to by program instructions": no step changes a
byte at or above `MEM_LIMIT`, from any state. -/
def Obligations.GuardAreaIsNeverWritten : Prop :=
  ∀ (s t : State) (a : Nat), step s = .next t → s.cfg.memLimit ≤ a → t.byte a = s.byte a

/-- 20_memory R39 (derived there): a fetch that starts in the code segment has all its bytes inside
the code and stack segments. The ten-byte window, the longest instruction's worth, is the model's
(log 8): the spec's fetch reads exactly the instruction's own bytes (40_execute_common R82). -/
def Obligations.FetchStaysBelowTheGuard : Prop :=
  ∀ s : State, s.cfg.WF → s.ip.toNat < s.cfg.codeSize →
    s.ip.toNat + 9 < s.cfg.memLimit ∧ s.fetchBytes.length = 10 ∧
      ∀ k, k < 10 → s.fetchBytes[k]? = some (s.byte (s.ip.toNat + k))

/-! ### Frames over all instructions -/

/-- 10_state R13, 40_execute_common R93 (both derived there): a general register changes only as the
direct destination of an instruction with a result or the direct operand of inc, dec, pop. -/
def Obligations.RegistersChangeOnlyAsOperands : Prop :=
  ∀ (i : Instr) (s t : State) (j : RegIdx), exec i s = .next t → registerWritten i ≠ some j →
    t.reg j = s.reg j

/-- 40_execute_common R93 (derived there): a byte of memory changes only inside the span the
instruction stores to, computed from the state before. -/
def Obligations.MemoryChangesOnlyInTheStoredSpan : Prop :=
  ∀ (i : Instr) (s t : State) (b : Nat), exec i s = .next t →
    (∀ a n, bytesWritten s i = some (a, n) → b < a ∨ a + n ≤ b) → t.byte b = s.byte b

/-- 10_state R17: only push and pop write `esp`. -/
def Obligations.OnlyPushAndPopMoveTheStackPointer : Prop :=
  ∀ (i : Instr) (s t : State), exec i s = .next t → i.op ≠ .push → i.op ≠ .pop →
    t.esp = s.esp

/-- 10_state R19 with the spec's decision D16: only cmp writes flags, and never to none. -/
def Obligations.OnlyCmpWritesFlags : Prop :=
  ∀ (i : Instr) (s t : State), exec i s = .next t →
    (i.op ≠ .cmp → t.flags = s.flags) ∧ (t.flags = .none → s.flags = .none)

/-- 10_state R22, 47_printi_halt R155: only printi touches the stream, and it appends one value. -/
def Obligations.OnlyPrintiWritesTheStream : Prop :=
  ∀ (i : Instr) (s t : State), exec i s = .next t →
    (i.op ≠ .printi → t.out = s.out) ∧ (t.out = s.out ∨ ∃ v, t.out = s.out ++ [v])

/-- 20_memory R37: every memory-indirect operand is checked before anything changes, in every
instruction, the destination before the source. -/
def Obligations.BoundsAreCheckedBeforeAnyEffect : Prop :=
  ∀ (i : Instr) (w : Width) (src : Src) (s : State) (a : Word), instrSrc i = some (w, src) →
    (∀ d, instrDst i = some d → dstAddress s d = some a → s.cfg.memLimit < a.toNat + w.bytes →
      exec i s =
        .next (faultOf s .memoryAccessViolation (some (s.cfg.opcode i.op)) (.address a))) ∧
    ((∀ d, instrDst i = some d → inBounds s w (dstAddress s d) = true) →
      srcAddress s src = some a → s.cfg.memLimit < a.toNat + w.bytes →
      exec i s =
        .next (faultOf s .memoryAccessViolation (some (s.cfg.opcode i.op)) (.address a)))

/-! ### Memory and the stack -/

/-- 20_memory R31 (derived there from R30, whose byte order for data is the spec's decision D8): a
read of any width sees, byte by byte, what a write of any width left. -/
def Obligations.ReadSeesTheBytesOfAnOverlappingWrite : Prop :=
  ∀ (s : State) (wr rd : Width) (a b : Nat) (v : Word) (k : Nat), k < rd.bytes →
    ((s.memWrite wr a v).memRead rd b).toNat / 2 ^ (8 * k) % 256 =
      if a ≤ b + k ∧ b + k < a + wr.bytes then v.toNat / 2 ^ (8 * (b + k - a)) % 256
      else (s.byte (b + k)).toNat

/-- 44_stack R134 (derived there): a push of a value followed by a pop of the same width gives the
value back and restores `esp`. -/
def Obligations.PopReturnsWhatPushPushed : Prop :=
  ∀ (w : Width) (src : Src) (j : RegIdx) (s : State), s.cfg.WF → (Instr.push w src).wf = true →
    inBounds s w (srcAddress s src) = true → s.esp.toNat + w.bytes ≤ s.cfg.stackSize →
    ∃ t u, exec (.push w src) s = .next t ∧ exec (.pop w (.reg j)) t = .next u ∧
      (u.reg j).toNat % 2 ^ w.bits = srcValue s w src ∧ u.esp = s.esp

/-! ### Arithmetic, bitwise and shift instructions -/

/-- 41_arithmetic_bitwise R101 `add`: at every form and width the destination receives the sum
modulo `2^(8·W)`; `ip` moves past the instruction; nothing else changes; a memory-indirect operand
out of bounds faults, the destination checked first. -/
def Obligations.AddStoresSum : Prop :=
  ArityTwoWords 0 Instr.add ∧ ArityTwoViolations .add Instr.add ∧
  ∀ (w : Width) (d : Dst) (src : Src) (s : State), (Instr.add w d src).wf = true →
    inBounds s w (dstAddress s d) = true → inBounds s w (srcAddress s src) = true →
    ∃ t, exec (.add w d src) s = .next t ∧
      (dstPlace s d).Holds w ((dstValue s w d + srcValue s w src) % 2 ^ w.bits) s t ∧
      MovedPast (instrLength (.add w d src)) s t ∧ t.esp = s.esp ∧ ControlKept s t

/-- 41_arithmetic_bitwise R102 `sub`: at every form and width the destination receives the
difference modulo `2^(8·W)`; `ip` moves past the instruction; nothing else changes; a
memory-indirect operand out of bounds faults, the destination checked first. -/
def Obligations.SubStoresDifference : Prop :=
  ArityTwoWords 1 Instr.sub ∧ ArityTwoViolations .sub Instr.sub ∧
  ∀ (w : Width) (d : Dst) (src : Src) (s : State), (Instr.sub w d src).wf = true →
    inBounds s w (dstAddress s d) = true → inBounds s w (srcAddress s src) = true →
    ∃ t, exec (.sub w d src) s = .next t ∧
      (dstPlace s d).Holds w ((dstValue s w d + 2 ^ w.bits - srcValue s w src) % 2 ^ w.bits) s t ∧
      MovedPast (instrLength (.sub w d src)) s t ∧ t.esp = s.esp ∧ ControlKept s t

/-- 41_arithmetic_bitwise R103 `mul`: at every form and width the destination receives the low `8·W`
bits of the product; `ip` moves past the instruction; nothing else changes; a memory-indirect
operand out of bounds faults, the destination checked first. -/
def Obligations.MulStoresLowProduct : Prop :=
  ArityTwoWords 2 Instr.mul ∧ ArityTwoViolations .mul Instr.mul ∧
  ∀ (w : Width) (d : Dst) (src : Src) (s : State), (Instr.mul w d src).wf = true →
    inBounds s w (dstAddress s d) = true → inBounds s w (srcAddress s src) = true →
    ∃ t, exec (.mul w d src) s = .next t ∧
      (dstPlace s d).Holds w ((dstValue s w d * srcValue s w src) % 2 ^ w.bits) s t ∧
      MovedPast (instrLength (.mul w d src)) s t ∧ t.esp = s.esp ∧ ControlKept s t

/-- 41_arithmetic_bitwise R104 `div`: at every form and width the destination receives the unsigned
quotient; `ip` moves past the instruction; nothing else changes; a memory-indirect operand out of
bounds faults, the destination checked first. A zero divisor faults DivideByZero, which is the
spec's decision D14 (R113). -/
def Obligations.DivStoresQuotient : Prop :=
  ArityTwoWords 3 Instr.div ∧ ArityTwoViolations .div Instr.div ∧
  (∀ (w : Width) (d : Dst) (src : Src) (s : State), (Instr.div w d src).wf = true →
    inBounds s w (dstAddress s d) = true → inBounds s w (srcAddress s src) = true →
    srcValue s w src = 0 →
    exec (.div w d src) s = .next (faultOf s .divideByZero (some (s.cfg.opcode .div)) .none)) ∧
  ∀ (w : Width) (d : Dst) (src : Src) (s : State), (Instr.div w d src).wf = true →
    inBounds s w (dstAddress s d) = true → inBounds s w (srcAddress s src) = true →
    srcValue s w src ≠ 0 →
    ∃ t, exec (.div w d src) s = .next t ∧
      (dstPlace s d).Holds w ((dstValue s w d / srcValue s w src) % 2 ^ w.bits) s t ∧
      MovedPast (instrLength (.div w d src)) s t ∧ t.esp = s.esp ∧ ControlKept s t

/-- 41_arithmetic_bitwise R105 `mod`: at every form and width the destination receives the unsigned
remainder; `ip` moves past the instruction; nothing else changes; a memory-indirect operand out of
bounds faults, the destination checked first. A zero divisor faults DivideByZero, which is the
spec's decision D14 (R113). -/
def Obligations.ModStoresRemainder : Prop :=
  ArityTwoWords 4 Instr.mod ∧ ArityTwoViolations .mod Instr.mod ∧
  (∀ (w : Width) (d : Dst) (src : Src) (s : State), (Instr.mod w d src).wf = true →
    inBounds s w (dstAddress s d) = true → inBounds s w (srcAddress s src) = true →
    srcValue s w src = 0 →
    exec (.mod w d src) s = .next (faultOf s .divideByZero (some (s.cfg.opcode .mod)) .none)) ∧
  ∀ (w : Width) (d : Dst) (src : Src) (s : State), (Instr.mod w d src).wf = true →
    inBounds s w (dstAddress s d) = true → inBounds s w (srcAddress s src) = true →
    srcValue s w src ≠ 0 →
    ∃ t, exec (.mod w d src) s = .next t ∧
      (dstPlace s d).Holds w ((dstValue s w d % srcValue s w src) % 2 ^ w.bits) s t ∧
      MovedPast (instrLength (.mod w d src)) s t ∧ t.esp = s.esp ∧ ControlKept s t

/-- 41_arithmetic_bitwise R106 `and`: at every form and width the destination receives the bitwise
AND; `ip` moves past the instruction; nothing else changes; a memory-indirect operand out of bounds
faults, the destination checked first. -/
def Obligations.AndStoresConjunction : Prop :=
  ArityTwoWords 5 Instr.and ∧ ArityTwoViolations .and Instr.and ∧
  ∀ (w : Width) (d : Dst) (src : Src) (s : State), (Instr.and w d src).wf = true →
    inBounds s w (dstAddress s d) = true → inBounds s w (srcAddress s src) = true →
    ∃ t, exec (.and w d src) s = .next t ∧
      (dstPlace s d).Holds w ((dstValue s w d &&& srcValue s w src) % 2 ^ w.bits) s t ∧
      MovedPast (instrLength (.and w d src)) s t ∧ t.esp = s.esp ∧ ControlKept s t

/-- 41_arithmetic_bitwise R107 `or`: at every form and width the destination receives the bitwise
inclusive OR; `ip` moves past the instruction; nothing else changes; a memory-indirect operand out
of bounds faults, the destination checked first. -/
def Obligations.OrStoresInclusiveOr : Prop :=
  ArityTwoWords 6 Instr.or ∧ ArityTwoViolations .or Instr.or ∧
  ∀ (w : Width) (d : Dst) (src : Src) (s : State), (Instr.or w d src).wf = true →
    inBounds s w (dstAddress s d) = true → inBounds s w (srcAddress s src) = true →
    ∃ t, exec (.or w d src) s = .next t ∧
      (dstPlace s d).Holds w ((dstValue s w d ||| srcValue s w src) % 2 ^ w.bits) s t ∧
      MovedPast (instrLength (.or w d src)) s t ∧ t.esp = s.esp ∧ ControlKept s t

/-- 41_arithmetic_bitwise R108 `xor`: at every form and width the destination receives the bitwise
exclusive OR; `ip` moves past the instruction; nothing else changes; a memory-indirect operand out
of bounds faults, the destination checked first. -/
def Obligations.XorStoresExclusiveOr : Prop :=
  ArityTwoWords 7 Instr.xor ∧ ArityTwoViolations .xor Instr.xor ∧
  ∀ (w : Width) (d : Dst) (src : Src) (s : State), (Instr.xor w d src).wf = true →
    inBounds s w (dstAddress s d) = true → inBounds s w (srcAddress s src) = true →
    ∃ t, exec (.xor w d src) s = .next t ∧
      (dstPlace s d).Holds w ((dstValue s w d ^^^ srcValue s w src) % 2 ^ w.bits) s t ∧
      MovedPast (instrLength (.xor w d src)) s t ∧ t.esp = s.esp ∧ ControlKept s t

/-- 41_arithmetic_bitwise R109 `shl`: at every form and width the destination receives `a * 2^b`
modulo `2^(8·W)`; `ip` moves past the instruction; nothing else changes; a memory-indirect operand
out of bounds faults, the destination checked first. The count is the whole source value, so an
over-wide shift gives 0: the spec's decision D15 (R112). -/
def Obligations.ShlStoresShiftedLeft : Prop :=
  ArityTwoWords 8 Instr.shl ∧ ArityTwoViolations .shl Instr.shl ∧
  ∀ (w : Width) (d : Dst) (src : Src) (s : State), (Instr.shl w d src).wf = true →
    inBounds s w (dstAddress s d) = true → inBounds s w (srcAddress s src) = true →
    ∃ t, exec (.shl w d src) s = .next t ∧
      (dstPlace s d).Holds w ((dstValue s w d * 2 ^ srcValue s w src) % 2 ^ w.bits) s t ∧
      MovedPast (instrLength (.shl w d src)) s t ∧ t.esp = s.esp ∧ ControlKept s t

/-- 41_arithmetic_bitwise R110 `shr`: at every form and width the destination receives `a div 2^b`;
`ip` moves past the instruction; nothing else changes; a memory-indirect operand out of bounds
faults, the destination checked first. The count is the whole source value, so an over-wide shift
gives 0: the spec's decision D15 (R112). -/
def Obligations.ShrStoresShiftedRight : Prop :=
  ArityTwoWords 9 Instr.shr ∧ ArityTwoViolations .shr Instr.shr ∧
  ∀ (w : Width) (d : Dst) (src : Src) (s : State), (Instr.shr w d src).wf = true →
    inBounds s w (dstAddress s d) = true → inBounds s w (srcAddress s src) = true →
    ∃ t, exec (.shr w d src) s = .next t ∧
      (dstPlace s d).Holds w ((dstValue s w d / 2 ^ srcValue s w src) % 2 ^ w.bits) s t ∧
      MovedPast (instrLength (.shr w d src)) s t ∧ t.esp = s.esp ∧ ControlKept s t

/-! ### mov, inc, dec -/

/-- 42_mov R120 `mov`: at every form and width exactly the source's `W` bytes are copied to the
destination; `ip` moves past the instruction; nothing else changes; a memory-indirect operand out of
bounds faults. -/
def Obligations.MovCopiesTheSource : Prop :=
  ArityTwoWords 10 Instr.mov ∧ ArityTwoViolations .mov Instr.mov ∧
  ∀ (w : Width) (d : Dst) (src : Src) (s : State), (Instr.mov w d src).wf = true →
    inBounds s w (dstAddress s d) = true → inBounds s w (srcAddress s src) = true →
    ∃ t, exec (.mov w d src) s = .next t ∧
      (dstPlace s d).Holds w (srcValue s w src) s t ∧
      MovedPast (instrLength (.mov w d src)) s t ∧ t.esp = s.esp ∧ ControlKept s t

/-- 43_inc_dec R125 `inc`: at every form and width the operand's location receives one more modulo
`2^(8·W)`; `ip` moves past the instruction; nothing else changes; a memory-indirect operand out of
bounds faults. The direct immediate faults InvalidInstruction, which is the spec's decision D21
(30_encoding R66). -/
def Obligations.IncAddsOneInPlace : Prop :=
  ArityOneWords 11 Instr.inc ∧ ArityOneViolations .inc Instr.inc ∧
  (∀ (w : Width) (v : Word) (s : State), exec (.inc w (.imm v)) s =
    .next (faultOf s .invalidInstruction (some (s.cfg.opcode .inc)) (.opcode (s.cfg.opcode .inc)))) ∧
  ∀ (w : Width) (src : Src) (p : Place) (s : State), (Instr.inc w src).wf = true →
    srcLoc s src = .place p → inBounds s w (srcAddress s src) = true →
    ∃ t, exec (.inc w src) s = .next t ∧
      p.Holds w ((p.value s w + 1) % 2 ^ w.bits) s t ∧
      MovedPast (instrLength (.inc w src)) s t ∧ t.esp = s.esp ∧ ControlKept s t

/-- 43_inc_dec R126 `dec`: at every form and width the operand's location receives one less modulo
`2^(8·W)`; `ip` moves past the instruction; nothing else changes; a memory-indirect operand out of
bounds faults. The direct immediate faults InvalidInstruction, which is the spec's decision D21
(30_encoding R66). -/
def Obligations.DecSubtractsOneInPlace : Prop :=
  ArityOneWords 12 Instr.dec ∧ ArityOneViolations .dec Instr.dec ∧
  (∀ (w : Width) (v : Word) (s : State), exec (.dec w (.imm v)) s =
    .next (faultOf s .invalidInstruction (some (s.cfg.opcode .dec)) (.opcode (s.cfg.opcode .dec)))) ∧
  ∀ (w : Width) (src : Src) (p : Place) (s : State), (Instr.dec w src).wf = true →
    srcLoc s src = .place p → inBounds s w (srcAddress s src) = true →
    ∃ t, exec (.dec w src) s = .next t ∧
      p.Holds w ((p.value s w + 2 ^ w.bits - 1) % 2 ^ w.bits) s t ∧
      MovedPast (instrLength (.dec w src)) s t ∧ t.esp = s.esp ∧ ControlKept s t

/-! ### push, pop -/

/-- 44_stack R131 `push`: at every form and width the source's `W` bytes are written at
`STACK_BASE + esp` and `esp` grows by `W`; a source out of bounds faults first, then a push that does
not fit the stack segment faults StackOverflow; a push that fills it exactly is legal. That push
writes at `STACK_BASE + esp` and then adds `W` is the spec's decision D23 (R130; log 23). -/
def Obligations.PushWritesAboveTheTop : Prop :=
  ArityOneWords 13 Instr.push ∧ ArityOneViolations .push Instr.push ∧
  (∀ (w : Width) (src : Src) (s : State), inBounds s w (srcAddress s src) = true →
    s.cfg.stackSize < s.esp.toNat + w.bytes →
    exec (.push w src) s =
      .next (faultOf s .stackOverflow (some (s.cfg.opcode .push)) (.stack s.esp w))) ∧
  ∀ (w : Width) (src : Src) (s : State), (Instr.push w src).wf = true →
    inBounds s w (srcAddress s src) = true → s.esp.toNat + w.bytes ≤ s.cfg.stackSize →
    ∃ t, exec (.push w src) s = .next t ∧
      (∀ k, k < w.bytes → (t.byte (s.cfg.stackBase + s.esp.toNat + k)).toNat =
        srcValue s w src / 2 ^ (8 * k) % 256) ∧
      (∀ b, b < s.cfg.stackBase + s.esp.toNat ∨ s.cfg.stackBase + s.esp.toNat + w.bytes ≤ b →
        t.byte b = s.byte b) ∧
      (∀ j, t.reg j = s.reg j) ∧ t.esp.toNat = (s.esp.toNat + w.bytes) % 2 ^ 64 ∧
      MovedPast (instrLength (.push w src)) s t ∧ ControlKept s t

/-- 44_stack R133 `pop`: at every form and width the operand's location receives the `W` bytes below
`STACK_BASE + esp`, read before anything is written, and `esp` shrinks by `W`; the popped bytes stay in
memory unless the operand overlaps them; a destination out of bounds faults first, then
StackUnderflow. It assumes the invariant `esp ≤ STACK_SIZE` of 10_state R17, which
StepKeepsTheInvariant states. The direct immediate faults InvalidInstruction, which is the spec's
decision D21 (30_encoding R66). -/
def Obligations.PopReadsTheTop : Prop :=
  ArityOneWords 14 Instr.pop ∧ ArityOneViolations .pop Instr.pop ∧
  (∀ (w : Width) (v : Word) (s : State), exec (.pop w (.imm v)) s =
    .next (faultOf s .invalidInstruction (some (s.cfg.opcode .pop)) (.opcode (s.cfg.opcode .pop)))) ∧
  (∀ (w : Width) (src : Src) (s : State), (Instr.pop w src).wf = true →
    inBounds s w (srcAddress s src) = true → s.esp.toNat < w.bytes →
    exec (.pop w src) s =
      .next (faultOf s .stackUnderflow (some (s.cfg.opcode .pop)) (.stack s.esp w))) ∧
  ∀ (w : Width) (src : Src) (p : Place) (s : State), (Instr.pop w src).wf = true →
    srcLoc s src = .place p → inBounds s w (srcAddress s src) = true →
    w.bytes ≤ s.esp.toNat → s.esp.toNat ≤ s.cfg.stackSize →
    ∃ t, exec (.pop w src) s = .next t ∧
      p.Holds w (s.littleEndian (s.cfg.stackBase + s.esp.toNat - w.bytes) w.bytes) s t ∧
      t.esp.toNat = s.esp.toNat - w.bytes ∧
      MovedPast (instrLength (.pop w src)) s t ∧ ControlKept s t

/-! ### cmp and the jumps -/

/-- 45_cmp R140 `cmp`: at every form and width the flags become zero, greater or smaller by the
unsigned relation of the first operand to the second; `ip` moves past the instruction; nothing else
changes; a memory-indirect operand out of bounds faults. -/
def Obligations.CmpSetsTheFlags : Prop :=
  ArityTwoWords 15 Instr.cmp ∧ ArityTwoViolations .cmp Instr.cmp ∧
  ∀ (w : Width) (d : Dst) (src : Src) (s : State), (Instr.cmp w d src).wf = true →
    inBounds s w (dstAddress s d) = true → inBounds s w (srcAddress s src) = true →
    exec (.cmp w d src) s =
      .next { s with
        flags :=
          if dstValue s w d = srcValue s w src then .zero
          else if srcValue s w src < dstValue s w d then .greater else .smaller
        ip := BitVec.ofNat 64 (s.ip.toNat + instrLength (.cmp w d src)) }

/-- 46_jumps R147 `jz`: taken exactly when flags are zero; a taken jump adds the source, read as
signed at its width (the spec's decision D19), to the jump's own address modulo `2^64` (D20); one
not taken moves past the instruction; nothing else changes; a memory-indirect operand out of bounds
faults either way (D24). -/
def Obligations.JzJumpsWhenZero : Prop :=
  ArityOneWords 16 Instr.jz ∧ ArityOneViolations .jz Instr.jz ∧
  ∀ (w : Width) (src : Src) (s : State), (Instr.jz w src).wf = true →
    inBounds s w (srcAddress s src) = true →
    (s.flags = .zero → exec (.jz w src) s =
      .next { s with
        ip := BitVec.ofInt 64 (s.ip.toNat + signedValue w (srcValue s w src)) }) ∧
    (¬(s.flags = .zero) → exec (.jz w src) s =
      .next { s with ip := BitVec.ofNat 64 (s.ip.toNat + instrLength (.jz w src)) })

/-- 46_jumps R148 `jnz`: taken exactly when flags are not zero; a taken jump adds the source, read
as signed at its width (the spec's decision D19), to the jump's own address modulo `2^64` (D20); one
not taken moves past the instruction; nothing else changes; a memory-indirect operand out of bounds
faults either way (D24). That the reset value none counts as not zero is the spec's decision D18
(R145). -/
def Obligations.JnzJumpsUnlessZero : Prop :=
  ArityOneWords 17 Instr.jnz ∧ ArityOneViolations .jnz Instr.jnz ∧
  ∀ (w : Width) (src : Src) (s : State), (Instr.jnz w src).wf = true →
    inBounds s w (srcAddress s src) = true →
    (s.flags ≠ .zero → exec (.jnz w src) s =
      .next { s with
        ip := BitVec.ofInt 64 (s.ip.toNat + signedValue w (srcValue s w src)) }) ∧
    (¬(s.flags ≠ .zero) → exec (.jnz w src) s =
      .next { s with ip := BitVec.ofNat 64 (s.ip.toNat + instrLength (.jnz w src)) })

/-- 46_jumps R149 `jg`: taken exactly when flags are greater; a taken jump adds the source, read as
signed at its width (the spec's decision D19), to the jump's own address modulo `2^64` (D20); one
not taken moves past the instruction; nothing else changes; a memory-indirect operand out of bounds
faults either way (D24). -/
def Obligations.JgJumpsWhenGreater : Prop :=
  ArityOneWords 18 Instr.jg ∧ ArityOneViolations .jg Instr.jg ∧
  ∀ (w : Width) (src : Src) (s : State), (Instr.jg w src).wf = true →
    inBounds s w (srcAddress s src) = true →
    (s.flags = .greater → exec (.jg w src) s =
      .next { s with
        ip := BitVec.ofInt 64 (s.ip.toNat + signedValue w (srcValue s w src)) }) ∧
    (¬(s.flags = .greater) → exec (.jg w src) s =
      .next { s with ip := BitVec.ofNat 64 (s.ip.toNat + instrLength (.jg w src)) })

/-- 46_jumps R150 `js`: taken exactly when flags are smaller; a taken jump adds the source, read as
signed at its width (the spec's decision D19), to the jump's own address modulo `2^64` (D20); one
not taken moves past the instruction; nothing else changes; a memory-indirect operand out of bounds
faults either way (D24). -/
def Obligations.JsJumpsWhenSmaller : Prop :=
  ArityOneWords 19 Instr.js ∧ ArityOneViolations .js Instr.js ∧
  ∀ (w : Width) (src : Src) (s : State), (Instr.js w src).wf = true →
    inBounds s w (srcAddress s src) = true →
    (s.flags = .smaller → exec (.js w src) s =
      .next { s with
        ip := BitVec.ofInt 64 (s.ip.toNat + signedValue w (srcValue s w src)) }) ∧
    (¬(s.flags = .smaller) → exec (.js w src) s =
      .next { s with ip := BitVec.ofNat 64 (s.ip.toNat + instrLength (.js w src)) })

/-! ### printi, halt -/

/-- 47_printi_halt R155 `printi`: at every form and width the unsigned source value is appended to the
stream; `ip` moves past the instruction; nothing else changes; a memory-indirect operand out of bounds
faults and appends nothing. -/
def Obligations.PrintiAppendsTheValue : Prop :=
  ArityOneWords 20 Instr.printi ∧ ArityOneViolations .printi Instr.printi ∧
  ∀ (w : Width) (src : Src) (s : State), (Instr.printi w src).wf = true →
    inBounds s w (srcAddress s src) = true →
    ∃ v : Word, v.toNat = srcValue s w src ∧
      exec (.printi w src) s =
        .next { s with
          out := s.out ++ [v]
          ip := BitVec.ofNat 64 (s.ip.toNat + instrLength (.printi w src)) }

/-- 47_printi_halt R156 `halt`: one byte, whose bits [7:5] are ignored and after which no byte is
read; the status becomes Halted and nothing else changes, `ip` included; no further step exists; and
no other instruction halts. -/
def Obligations.HaltStopsInPlace : Prop :=
  (∀ (b0 : Byte) (rest : List Byte), b0.toNat % 32 = 21 →
    decode Config.default (b0 :: rest) = .ok (.halt, rest)) ∧
  encode Config.default .halt = [0x15] ∧
  (∀ s : State, exec .halt s = .next { s with status := .halted }) ∧
  (∀ s t : State, s.status = .halted → step s ≠ .next t) ∧
  ∀ (i : Instr) (s t : State), s.status = .running → exec i s = .next t → t.status = .halted →
    i = .halt
end

