-- ==== Sys2Proof/Laws/Decode.lean ====
section
/-! SUPPORT. The laws the encoder and decoder are built on: byte fields come apart as they were put
together, little-endian bytes spell their value, an injective opcode map can be read backwards. -/

namespace Sys2Proof

/-! ### The fields of bytes 0 and 1 -/

@[simp] theorem opcField_pack (d : BitVec 3) (opc : BitVec 5) : opcField (packByte0 d opc) = opc := by
  revert d opc; decide

@[simp] theorem dstField_pack (d : BitVec 3) (opc : BitVec 5) : dstField (packByte0 d opc) = d := by
  revert d opc; decide

@[simp] theorem typeField_pack (t : BitVec 1) (ws : BitVec 2) (sm dm : BitVec 1) (s : BitVec 3) :
    typeField (packByte1 t ws sm dm s) = t := by
  revert t ws sm dm s; decide

@[simp] theorem selectorField_pack (t : BitVec 1) (ws : BitVec 2) (sm dm : BitVec 1) (s : BitVec 3) :
    selectorField (packByte1 t ws sm dm s) = ws := by
  revert t ws sm dm s; decide

@[simp] theorem srcIndirectField_pack (t : BitVec 1) (ws : BitVec 2) (sm dm : BitVec 1) (s : BitVec 3) :
    srcIndirectField (packByte1 t ws sm dm s) = sm := by
  revert t ws sm dm s; decide

@[simp] theorem dstIndirectField_pack (t : BitVec 1) (ws : BitVec 2) (sm dm : BitVec 1) (s : BitVec 3) :
    dstIndirectField (packByte1 t ws sm dm s) = dm := by
  revert t ws sm dm s; decide

@[simp] theorem srcField_pack (t : BitVec 1) (ws : BitVec 2) (sm dm : BitVec 1) (s : BitVec 3) :
    srcField (packByte1 t ws sm dm s) = s := by
  revert t ws sm dm s; decide

/-- Byte 0 as its fields and a number. -/
theorem packByte0_toNat (d : BitVec 3) (opc : BitVec 5) :
    (packByte0 d opc).toNat = 32 * d.toNat + opc.toNat := by
  revert d opc; decide

/-- Byte 1 as its fields and a number. -/
theorem packByte1_toNat (t : BitVec 1) (ws : BitVec 2) (sm dm : BitVec 1) (s : BitVec 3) :
    (packByte1 t ws sm dm s).toNat =
      128 * t.toNat + 32 * ws.toNat + 16 * sm.toNat + 8 * dm.toNat + s.toNat := by
  revert t ws sm dm s; decide

/-- Every byte 0 is its fields put together. -/
theorem packByte0_fields (b : Byte) : packByte0 (dstField b) (opcField b) = b := by
  revert b; decide

/-- Every byte 1 is its fields put together. -/
theorem packByte1_fields (b : Byte) :
    packByte1 (typeField b) (selectorField b) (srcIndirectField b) (dstIndirectField b)
      (srcField b) = b := by
  revert b; decide

theorem opcField_toNat (b : Byte) : (opcField b).toNat = b.toNat % 32 := by
  revert b; decide

theorem dstField_toNat (b : Byte) : (dstField b).toNat = b.toNat / 32 := by
  revert b; decide

theorem typeField_toNat (b : Byte) : (typeField b).toNat = b.toNat / 128 := by
  revert b; decide

theorem selectorField_toNat (b : Byte) : (selectorField b).toNat = b.toNat / 32 % 4 := by
  revert b; decide

theorem srcIndirectField_toNat (b : Byte) : (srcIndirectField b).toNat = b.toNat / 16 % 2 := by
  revert b; decide

theorem dstIndirectField_toNat (b : Byte) : (dstIndirectField b).toNat = b.toNat / 8 % 2 := by
  revert b; decide

theorem srcField_toNat (b : Byte) : (srcField b).toNat = b.toNat % 8 := by
  revert b; decide

theorem BitVec1.eq_zero_or_one (x : BitVec 1) : x = 0 ∨ x = 1 := by
  revert x; decide

@[simp] theorem Width.ofSelector_selector (w : Width) : Width.ofSelector w.selector = w := by
  cases w <;> rfl

@[simp] theorem Width.selector_ofSelector (ws : BitVec 2) : (Width.ofSelector ws).selector = ws := by
  revert ws; decide

/-- `W = 2^ws` (30_encoding R54). -/
theorem Width.ofSelector_bytes (ws : BitVec 2) : (Width.ofSelector ws).bytes = 2 ^ ws.toNat := by
  revert ws; decide

/-- `W = 2^ws` of byte 1 (30_encoding R54). -/
theorem widthOf_bytes (b1 : Byte) : (widthOf b1).bytes = 2 ^ (b1.toNat / 32 % 4) := by
  rw [widthOf, Width.ofSelector_bytes, selectorField_toNat]

@[simp] theorem widthOf_pack (t : BitVec 1) (w : Width) (sm dm : BitVec 1) (s : BitVec 3) :
    widthOf (packByte1 t w.selector sm dm s) = w := by
  rw [widthOf, selectorField_pack, Width.ofSelector_selector]

theorem Width.bytes_injective {v w : Width} (h : v.bytes = w.bytes) : v = w := by
  cases v <;> cases w <;> simp [Width.bytes] at h ⊢

theorem Width.bits_le (w : Width) : w.bits ≤ 64 := by cases w <;> decide

theorem Width.bytes_le (w : Width) : w.bytes ≤ 8 := by cases w <;> decide

theorem Width.bytes_pos (w : Width) : 0 < w.bytes := by cases w <;> decide

theorem Width.bits_pos (w : Width) : 0 < w.bits := by cases w <;> decide

/-! ### Little-endian values -/

@[simp] theorem leBytes_length (n v : Nat) : (leBytes n v).length = n := by
  induction n generalizing v with
  | zero => rfl
  | succ n ih => simp [leBytes, ih]

/-- Little-endian bytes spell their value, cut to their number. -/
theorem leValue_leBytes (n v : Nat) : leValue (leBytes n v) = v % 256 ^ n := by
  induction n generalizing v with
  | zero => simp [leBytes, leValue, Nat.mod_one]
  | succ n ih =>
    have hb : (BitVec.ofNat 8 v).toNat = v % 256 := rfl
    have hm : 256 ^ (n + 1) = 256 * 256 ^ n := by rw [pow_succ, mul_comm]
    rw [leBytes, leValue, ih, hb, hm, Nat.mod_mul]

theorem leValue_lt (bs : List Byte) : leValue bs < 256 ^ bs.length := by
  induction bs with
  | nil => simp [leValue]
  | cons b bs ih =>
    have := b.isLt
    rw [leValue, List.length_cons, pow_succ']
    omega

/-- Bytes are the little-endian bytes of their value. -/
theorem leBytes_leValue (bs : List Byte) : leBytes bs.length (leValue bs) = bs := by
  induction bs with
  | nil => rfl
  | cons b bs ih =>
    have h1 : (b.toNat + 256 * leValue bs) / 256 = leValue bs := by have := b.isLt; omega
    have h2 : BitVec.ofNat 8 (b.toNat + 256 * leValue bs) = b := by
      apply BitVec.eq_of_toNat_eq
      have := b.isLt
      rw [BitVec.toNat_ofNat]
      omega
    rw [List.length_cons, leBytes, leValue, h1, h2, ih]

/-- The value of bytes as the sum 00_scope R7 writes. -/
theorem leValue_eq_sum (bs : List Byte) :
    leValue bs = ∑ k ∈ Finset.range bs.length, 2 ^ (8 * k) * (bs.getD k 0).toNat := by
  induction bs with
  | nil => rfl
  | cons b bs ih =>
    rw [List.length_cons, Finset.sum_range_succ', leValue, ih, Finset.mul_sum]
    have : ∀ k, 256 * (2 ^ (8 * k) * (bs.getD k 0).toNat) =
        2 ^ (8 * (k + 1)) * ((b :: bs).getD (k + 1) 0).toNat := fun k => by
      rw [List.getD_cons_succ, mul_add, pow_add]
      ring
    simp only [this]
    simp [add_comm]

/-- The little-endian bytes of a value, one by one. -/
theorem leBytes_eq_map (n v : Nat) :
    leBytes n v = (List.range n).map fun k => BitVec.ofNat 8 (v / 2 ^ (8 * k)) := by
  induction n generalizing v with
  | zero => rfl
  | succ n ih =>
    rw [leBytes, ih, List.range_succ_eq_map, List.map_cons, List.map_map]
    congr 1
    · simp
    · apply List.map_congr_left
      intro k _
      rw [Function.comp_apply, Nat.div_div_eq_div_mul, Nat.succ_eq_add_one, mul_add, pow_add,
        mul_comm (2 ^ (8 * k))]
      rfl

theorem Width.pow_bits (w : Width) : 256 ^ w.bytes = 2 ^ w.bits := by
  rw [Width.bits, pow_mul]
  norm_num

/-- An immediate's bytes are read back as the immediate. -/
theorem takeImm_leBytes (w : Width) (v : Word) (rest : List Byte) (h : v.toNat < 2 ^ w.bits) :
    takeImm w (leBytes w.bytes v.toNat ++ rest) = some (v, rest) := by
  have e : leValue (leBytes w.bytes v.toNat) = v.toNat := by
    rw [leValue_leBytes, Width.pow_bits, Nat.mod_eq_of_lt h]
  rw [takeImm, if_neg (by simp), List.take_left' (leBytes_length _ _),
    List.drop_left' (leBytes_length _ _), e, BitVec.ofNat_toNat, BitVec.setWidth_eq]

/-- What `takeImm` reads: the bytes of the immediate and then the rest. -/
theorem takeImm_eq_some {w : Width} {bs rest : List Byte} {v : Word}
    (h : takeImm w bs = some (v, rest)) :
    v.toNat < 2 ^ w.bits ∧ bs = leBytes w.bytes v.toNat ++ rest := by
  unfold takeImm at h
  split_ifs at h with hlt
  obtain ⟨rfl, rfl⟩ := Prod.mk.inj (Option.some.inj h)
  have hlen : (bs.take w.bytes).length = w.bytes := by rw [List.length_take]; omega
  have hv := leValue_lt (bs.take w.bytes)
  rw [hlen, Width.pow_bits] at hv
  have h64 : leValue (bs.take w.bytes) < 2 ^ 64 :=
    hv.trans_le (Nat.pow_le_pow_right (by decide) w.bits_le)
  rw [BitVec.toNat_ofNat, Nat.mod_eq_of_lt h64]
  refine ⟨hv, ?_⟩
  have := leBytes_leValue (bs.take w.bytes)
  rw [hlen] at this
  rw [this, List.take_append_drop]

/-! ### The opcode map -/

theorem Op.mem_all (op : Op) : op ∈ Op.all := by cases op <;> decide

/-- An injective opcode map gives each code back its operation. -/
theorem Config.operation_opcode {c : Config} (h : (Op.all.map c.opcode).Nodup) (op : Op) :
    c.operation (c.opcode op) = some op := by
  have inj : ∀ x ∈ Op.all, ∀ y ∈ Op.all, c.opcode x = c.opcode y → x = y :=
    List.inj_on_of_nodup_map h
  cases e : c.operation (c.opcode op) with
  | none =>
    have := List.find?_eq_none.1 e op op.mem_all
    simp at this
  | some op' =>
    have h' : c.opcode op' = c.opcode op := by simpa using List.find?_some e
    rw [inj op' op'.mem_all op op.mem_all h']

/-- The operation found has the code looked up. -/
theorem Config.opcode_of_operation {c : Config} {opc : BitVec 5} {op : Op}
    (h : c.operation opc = some op) : c.opcode op = opc := by
  simpa using List.find?_some h

/-- A code is found for no operation exactly when none has it. -/
theorem Config.operation_eq_none {c : Config} {opc : BitVec 5} :
    c.operation opc = none ↔ ∀ op, c.opcode op ≠ opc := by
  constructor
  · intro h op he
    have := List.find?_eq_none.1 h op op.mem_all
    simp [he] at this
  · intro h
    exact List.find?_eq_none.2 fun op _ => by simp [h op]

/-- The default opcode map is injective. -/
theorem Config.default_injective : (Op.all.map Config.default.opcode).Nodup := by decide

end Sys2Proof
end

