-- ==== Sys2Proof/Laws/Encoding.lean ====
section
/-! SUPPORT. The encoder and decoder, arity by arity: what the instructions of one shape encode to,
what the decoder does with the bytes of one shape, and everything a successful decode can be. -/

namespace Sys2Proof

open Machine (instrDst instrSrc)

/-! ### The instructions of one shape -/

/-- The instruction of an arity-0 operation. -/
theorem Op.of_arity0 {op : Op} {i : Instr} (h : op.shape = .arity0 i) : op = .halt ∧ i = .halt := by
  cases op <;> simp [Op.shape] at h ⊢
  exact h.symm

/-- The instructions of an arity-1 operation. -/
theorem Op.of_arity1 {op : Op} {mk : Width → Src → Instr} {writes : Bool}
    (h : op.shape = .arity1 mk writes) (w : Width) (src : Src) :
    (mk w src).op = op ∧ instrDst (mk w src) = none ∧ instrSrc (mk w src) = some (w, src) ∧
      (mk w src).wf = (src.fits w && (!writes || src.writable)) ∧
      ∀ c, encode c (mk w src) = encode1 (c.opcode op) w src := by
  cases op <;> simp only [Op.shape, Shape.arity1.injEq, reduceCtorEq] at h <;>
    obtain ⟨rfl, rfl⟩ := h <;> simp [Instr.op, instrDst, instrSrc, Instr.wf, encode]

/-- The instructions of an arity-2 operation. -/
theorem Op.of_arity2 {op : Op} {mk : Width → Dst → Src → Instr} (h : op.shape = .arity2 mk)
    (w : Width) (d : Dst) (src : Src) :
    (mk w d src).op = op ∧ instrDst (mk w d src) = some d ∧
      instrSrc (mk w d src) = some (w, src) ∧ (mk w d src).wf = src.fits w ∧
      ∀ c, encode c (mk w d src) = encode2 (c.opcode op) w d src := by
  cases op <;> simp only [Op.shape, Shape.arity2.injEq, reduceCtorEq] at h <;>
    subst h <;> simp [Instr.op, instrDst, instrSrc, Instr.wf, encode]

/-- Every instruction is one of its operation's shape. -/
theorem Instr.shape_cases (i : Instr) :
    (i.op.shape = .arity0 i) ∨
      (∃ mk writes w src, i.op.shape = .arity1 mk writes ∧ i = mk w src) ∨
      ∃ mk w d src, i.op.shape = .arity2 mk ∧ i = mk w d src := by
  cases i with
  | halt => exact .inl rfl
  | inc w src | dec w src | push w src | pop w src | jz w src | jnz w src | jg w src | js w src
  | printi w src => exact .inr (.inl ⟨_, _, w, src, rfl, rfl⟩)
  | add w d src | sub w d src | mul w d src | div w d src | mod w d src | and w d src | or w d src
  | xor w d src | shl w d src | shr w d src | mov w d src | cmp w d src =>
    exact .inr (.inr ⟨_, w, d, src, rfl, rfl⟩)

/-! ### The decoder on one shape -/

section
variable {c : Config} {op : Op} {b0 b1 : Byte} {rest : List Byte}

theorem decode_arity0 {i : Instr} (ho : c.operation (opcField b0) = some op)
    (hs : op.shape = .arity0 i) : decode c (b0 :: rest) = .ok (i, rest) := by
  simp only [decode, ho, hs]

theorem decode_arity1 {mk : Width → Src → Instr} {writes : Bool}
    (ho : c.operation (opcField b0) = some op) (hs : op.shape = .arity1 mk writes) :
    decode c (b0 :: b1 :: rest) =
      if (writes && isDirectImm b1) = true then
        .error (.immediateDestination (opcField b0))
      else
        match decodeSrc b1 rest with
        | none => .error .truncated
        | some (src, rest) => .ok (mk (widthOf b1) src, rest) := by
  simp only [decode, ho, hs]
  all_goals rfl

theorem decode_arity2 {mk : Width → Dst → Src → Instr}
    (ho : c.operation (opcField b0) = some op) (hs : op.shape = .arity2 mk) :
    decode c (b0 :: b1 :: rest) =
      match decodeSrc b1 rest with
      | none => .error .truncated
      | some (src, rest) =>
        .ok (mk (widthOf b1) (decodeDst b0 b1) src, rest) := by
  simp only [decode, ho, hs]
  all_goals rfl

/-- An operation none of whose codes stands in byte 0 is refused on byte 0 alone. -/
theorem decode_unknown (ho : c.operation (opcField b0) = none) :
    decode c (b0 :: rest) = .error (.unknownOpcode (opcField b0)) := by
  simp only [decode, ho]

end

/-- Everything a successful decode can be. -/
theorem decode_ok {c : Config} {bytes rest : List Byte} {i : Instr}
    (h : decode c bytes = .ok (i, rest)) :
    ∃ b0 tail, bytes = b0 :: tail ∧ c.operation (opcField b0) = some i.op ∧
      ((i.op.shape = .arity0 i ∧ tail = rest) ∨
        ∃ b1 tail', tail = b1 :: tail' ∧
          ((∃ mk writes src, i.op.shape = .arity1 mk writes ∧
              (writes && isDirectImm b1) = false ∧
              decodeSrc b1 tail' = some (src, rest) ∧
              i = mk (widthOf b1) src) ∨
            ∃ mk src, i.op.shape = .arity2 mk ∧
              decodeSrc b1 tail' = some (src, rest) ∧
              i = mk (widthOf b1) (decodeDst b0 b1) src)) := by
  cases bytes with
  | nil => simp [decode] at h
  | cons b0 tail =>
    cases ho : c.operation (opcField b0) with
    | none => simp [decode_unknown ho] at h
    | some op =>
      refine ⟨b0, tail, rfl, ?_⟩
      cases hs : op.shape with
      | arity0 i' =>
        rw [decode_arity0 ho hs] at h
        obtain ⟨rfl, rfl⟩ := Prod.mk.inj (Except.ok.inj h)
        obtain ⟨rfl, rfl⟩ := Op.of_arity0 hs
        exact ⟨ho, .inl ⟨rfl, rfl⟩⟩
      | arity1 mk writes =>
        cases tail with
        | nil => simp [decode, ho, hs] at h
        | cons b1 tail' =>
          rw [decode_arity1 ho hs] at h
          split at h
          · cases h
          · rename_i hw
            split at h
            · cases h
            · rename_i src rest' hsrc
              obtain ⟨rfl, rfl⟩ := Prod.mk.inj (Except.ok.inj h)
              have e := (Op.of_arity1 hs (widthOf b1) src).1
              rw [e]
              exact ⟨ho, .inr ⟨b1, tail', rfl,
                .inl ⟨mk, writes, src, hs, by simpa using hw, hsrc, rfl⟩⟩⟩
      | arity2 mk =>
        cases tail with
        | nil => simp [decode, ho, hs] at h
        | cons b1 tail' =>
          rw [decode_arity2 ho hs] at h
          split at h
          · cases h
          · rename_i src rest' hsrc
            obtain ⟨rfl, rfl⟩ := Prod.mk.inj (Except.ok.inj h)
            have e := (Op.of_arity2 hs (widthOf b1)
              (decodeDst b0 b1) src).1
            rw [e]
            exact ⟨ho, .inr ⟨b1, tail', rfl, .inr ⟨mk, src, hs, hsrc, rfl⟩⟩⟩

/-! ### The operands -/

/-- The source operand's fields and immediate bytes are read back as the operand. -/
theorem decodeSrc_pack {w : Width} {src : Src} (h : src.fits w = true) (dm : BitVec 1)
    (rest : List Byte) :
    decodeSrc (packByte1 src.typeBit w.selector src.indirectBit dm src.field)
      (src.immBytes w ++ rest) = some (src, rest) := by
  cases src <;>
    simp_all [decodeSrc, Src.typeBit, Src.indirectBit, Src.field, Src.immBytes, Src.fits,
      takeImm_leBytes]

/-- A direct immediate is told from its fields. -/
theorem isDirectImm_pack (src : Src) (ws : BitVec 2) (dm : BitVec 1) :
    isDirectImm (packByte1 src.typeBit ws src.indirectBit dm src.field) = !src.writable := by
  cases src <;> simp [isDirectImm, Src.typeBit, Src.indirectBit, Src.writable]

/-- The destination operand's fields are read back as the operand. -/
theorem decodeDst_pack (d : Dst) (opc : BitVec 5) (t : BitVec 1) (ws : BitVec 2) (sm : BitVec 1)
    (s : BitVec 3) :
    decodeDst (packByte0 d.field opc) (packByte1 t ws sm d.indirectBit s) = d := by
  cases d <;> simp [decodeDst, Dst.field, Dst.indirectBit]

/-- A decoded source operand fits its width, and its fields and immediate bytes are those read, the
source register field apart when there is an immediate. -/
theorem decodeSrc_some {b1 : Byte} {bs rest : List Byte} {src : Src}
    (h : decodeSrc b1 bs = some (src, rest)) :
    src.fits (widthOf b1) = true ∧ bs = src.immBytes (widthOf b1) ++ rest ∧
      src.typeBit = typeField b1 ∧ src.indirectBit = srcIndirectField b1 ∧
      src.field = (if typeField b1 = 0 then srcField b1 else 0) ∧
      src.writable = !isDirectImm b1 := by
  unfold decodeSrc at h
  by_cases ht : typeField b1 = 0
  · rw [if_pos ht] at h
    obtain ⟨rfl, rfl⟩ := Prod.mk.inj (Option.some.inj h)
    rcases BitVec1.eq_zero_or_one (srcIndirectField b1) with hs | hs <;>
      simp [ht, hs, Src.fits, Src.immBytes, Src.typeBit, Src.indirectBit, Src.field,
        Src.writable, isDirectImm]
  · rw [if_neg ht] at h
    have ht := (BitVec1.eq_zero_or_one (typeField b1)).resolve_left ht
    obtain ⟨⟨v, r⟩, hv, e⟩ := Option.map_eq_some_iff.1 h
    obtain ⟨rfl, rfl⟩ := Prod.mk.inj e
    obtain ⟨hlt, rfl⟩ := takeImm_eq_some hv
    rcases BitVec1.eq_zero_or_one (srcIndirectField b1) with hs | hs <;>
      simp [ht, hs, hlt, Src.fits, Src.immBytes, Src.typeBit, Src.indirectBit, Src.field,
        Src.writable, isDirectImm]

end Sys2Proof
end

