-- ==== Sys2Proof/Laws/Memory.lean ====
section
/-! SUPPORT. The laws of memory: a byte written is read back and no other byte changes; every
operation keeps the canonical form and adds no offset but those it writes; reads and writes of several
bytes, byte by byte. -/

namespace Sys2Proof.Machine

/-! ### One byte -/

theorem Memory.read_insert (m : Memory) (a : Nat) (v : Byte) (b : Nat) :
    (m.insert a v).read b = if b = a then v else m.read b := by
  induction m with
  | nil => simp [Memory.insert, Memory.read, eq_comm]
  | cons c m ih =>
    obtain ⟨k, x⟩ := c
    simp only [Memory.insert]
    split_ifs with h1 h2 h3 h4 h5 <;> simp only [Memory.read, ih] <;> split_ifs <;> first | rfl | omega

theorem Memory.read_filter (m : Memory) (a b : Nat) :
    Memory.read (m.filter fun cell => decide (cell.1 ≠ a)) b = if b = a then 0 else m.read b := by
  induction m with
  | nil => simp [Memory.read]
  | cons c m ih =>
    obtain ⟨k, x⟩ := c
    by_cases h : k = a
    · simp only [List.filter_cons, h, ne_eq, not_true_eq_false, decide_false, Bool.false_eq_true,
        if_false, Memory.read] at ih ⊢
      rw [ih]
      split_ifs <;> first | rfl | omega
    · simp only [List.filter_cons, ne_eq, h, not_false_eq_true, decide_true, if_true,
        Memory.read] at ih ⊢
      rw [ih]
      split_ifs <;> first | rfl | omega

/-- A byte written is read back, and every other byte reads as before. -/
@[simp] theorem Memory.read_write (m : Memory) (a : Nat) (v : Byte) (b : Nat) :
    (m.write a v).read b = if b = a then v else m.read b := by
  unfold Memory.write
  by_cases h : v = 0
  · rw [if_pos h, Memory.read_filter, h]
  · rw [if_neg h, Memory.read_insert]

theorem Memory.mem_insert {m : Memory} {a : Nat} {v : Byte} {c : Host.Cell}
    (h : c ∈ m.insert a v) : c = (a, v) ∨ c ∈ m := by
  induction m with
  | nil => simpa [Memory.insert] using h
  | cons d m ih =>
    obtain ⟨k, x⟩ := d
    simp only [Memory.insert] at h
    split_ifs at h <;> simp only [List.mem_cons] at h ⊢
    · tauto
    · tauto
    · rcases h with h | h
      · tauto
      · rcases ih h with h | h <;> tauto

theorem Memory.wf_insert {m : Memory} (hm : m.wf) (a : Nat) {v : Byte} (hv : v ≠ 0) :
    (m.insert a v).wf := by
  refine ⟨?_, fun c hc => ?_⟩
  · obtain ⟨hm, -⟩ := hm
    induction m with
    | nil => simp [Memory.insert]
    | cons d m ih =>
      obtain ⟨k, x⟩ := d
      obtain ⟨hk, hm⟩ := List.pairwise_cons.1 hm
      simp only [Memory.insert]
      split_ifs with h1 h2
      · refine List.pairwise_cons.2 ⟨fun c hc => ?_, List.pairwise_cons.2 ⟨hk, hm⟩⟩
        rcases List.mem_cons.1 hc with rfl | hc
        · exact h1
        · exact h1.trans (hk c hc)
      · exact List.pairwise_cons.2 ⟨fun c hc => h2 ▸ hk c hc, hm⟩
      · refine List.pairwise_cons.2 ⟨fun c hc => ?_, ih hm⟩
        rcases Memory.mem_insert hc with rfl | hc
        · show k < a
          omega
        · exact hk c hc
  · rcases Memory.mem_insert hc with rfl | hc
    · exact hv
    · exact hm.2 c hc

/-- A write keeps the canonical form. -/
theorem Memory.wf_write {m : Memory} (hm : m.wf) (a : Nat) (v : Byte) : (m.write a v).wf := by
  unfold Memory.write
  split_ifs with h
  · exact ⟨hm.1.filter _, fun c hc => hm.2 c (List.mem_of_mem_filter hc)⟩
  · exact Memory.wf_insert hm a h

/-- A write lists no offset but the one written. -/
theorem Memory.mem_write {m : Memory} {a : Nat} {v : Byte} {c : Host.Cell} (h : c ∈ m.write a v) :
    c.1 = a ∨ c ∈ m := by
  unfold Memory.write at h
  split_ifs at h
  · exact .inr (List.mem_of_mem_filter h)
  · rcases Memory.mem_insert h with rfl | h
    · exact .inl rfl
    · exact .inr h

/-! ### Several bytes -/

/-- What a little-endian write leaves at each offset. -/
theorem Memory.read_writeLE (m : Memory) (a n v b : Nat) :
    (m.writeLE a n v).read b =
      if a ≤ b ∧ b < a + n then BitVec.ofNat 8 (v / 2 ^ (8 * (b - a))) else m.read b := by
  induction n generalizing m a v with
  | zero => simp [Memory.writeLE]
  | succ n ih =>
    simp only [Memory.writeLE, ih, Memory.read_write]
    by_cases hb : b = a
    · simp [hb]
    · by_cases h : a ≤ b ∧ b < a + (n + 1)
      · have h1 : a + 1 ≤ b ∧ b < a + 1 + n := by omega
        have e : 8 * (b - a) = 8 + 8 * (b - (a + 1)) := by omega
        rw [if_pos h1, if_pos h, e, pow_add, Nat.div_div_eq_div_mul]
        rfl
      · have h1 : ¬(a + 1 ≤ b ∧ b < a + 1 + n) := by omega
        rw [if_neg h1, if_neg h, if_neg hb]

theorem Memory.wf_writeLE {m : Memory} (hm : m.wf) (a n v : Nat) : (m.writeLE a n v).wf := by
  induction n generalizing m a v with
  | zero => exact hm
  | succ n ih => exact ih (Memory.wf_write hm _ _) _ _

/-- A little-endian write lists no offset but those it covers. -/
theorem Memory.mem_writeLE {m : Memory} {a n v : Nat} {c : Host.Cell} (h : c ∈ m.writeLE a n v) :
    (a ≤ c.1 ∧ c.1 < a + n) ∨ c ∈ m := by
  induction n generalizing m a v with
  | zero => exact .inr h
  | succ n ih =>
    rcases ih h with h | h
    · exact .inl (by omega)
    · rcases Memory.mem_write h with h | h
      · exact .inl (by omega)
      · exact .inr h

/-- A little-endian read as the sum 00_scope R7 writes. -/
theorem Memory.readLE_eq_sum (m : Memory) (a n : Nat) :
    m.readLE a n = ∑ k ∈ Finset.range n, 2 ^ (8 * k) * (m.read (a + k)).toNat := by
  induction n generalizing a with
  | zero => rfl
  | succ n ih =>
    rw [Finset.sum_range_succ', Memory.readLE, ih, Finset.mul_sum]
    have : ∀ k, 256 * (2 ^ (8 * k) * (m.read (a + 1 + k)).toNat) =
        2 ^ (8 * (k + 1)) * (m.read (a + (k + 1))).toNat := fun k => by
      rw [show a + (k + 1) = a + 1 + k by omega, mul_add, pow_add]
      ring
    simp only [this]
    simp [add_comm]

theorem Memory.readLE_lt (m : Memory) (a n : Nat) : m.readLE a n < 2 ^ (8 * n) := by
  induction n generalizing a with
  | zero => simp [Memory.readLE]
  | succ n ih =>
    have h1 := ih (a + 1)
    have h2 := (m.read a).isLt
    rw [Memory.readLE, mul_add, pow_add]
    omega

/-- Each byte of a little-endian read. -/
theorem Memory.readLE_byte (m : Memory) (a n k : Nat) (hk : k < n) :
    m.readLE a n / 2 ^ (8 * k) % 256 = (m.read (a + k)).toNat := by
  induction n generalizing a k with
  | zero => omega
  | succ n ih =>
    have h := (m.read a).isLt
    cases k with
    | zero => simp only [Memory.readLE]; norm_num; omega
    | succ k =>
      have e : 8 * (k + 1) = 8 + 8 * k := by omega
      rw [Memory.readLE, e, pow_add, ← Nat.div_div_eq_div_mul,
        show ((m.read a).toNat + 256 * m.readLE (a + 1) n) / 2 ^ 8 = m.readLE (a + 1) n by omega,
        ih (a + 1) k (by omega), show a + 1 + k = a + (k + 1) by omega]

/-- A read depends on nothing but the bytes it reads. -/
theorem Memory.readLE_congr {m m' : Memory} {a n : Nat}
    (h : ∀ k, k < n → m.read (a + k) = m'.read (a + k)) : m.readLE a n = m'.readLE a n := by
  rw [Memory.readLE_eq_sum, Memory.readLE_eq_sum]
  exact Finset.sum_congr rfl fun k hk => by rw [h k (Finset.mem_range.1 hk)]

/-- A value written little-endian is read back, cut to the bytes written. -/
theorem Memory.readLE_writeLE (m : Memory) (a n v : Nat) :
    (m.writeLE a n v).readLE a n = v % 2 ^ (8 * n) := by
  induction n generalizing m a v with
  | zero => simp [Memory.readLE, Nat.mod_one]
  | succ n ih =>
    rw [Memory.readLE, Memory.writeLE, ih, Memory.read_writeLE]
    have h1 : ¬(a + 1 ≤ a ∧ a < a + 1 + n) := by omega
    rw [if_neg h1, Memory.read_write, if_pos rfl, BitVec.toNat_ofNat, mul_add, mul_one, add_comm,
      pow_add, mul_comm (2 ^ (8 * n)), Nat.mod_mul]
    norm_num
    omega

/-! ### Byte lists -/

@[simp] theorem Memory.bytes_length (m : Memory) (a n : Nat) : (m.bytes a n).length = n := by
  induction n generalizing a with
  | zero => rfl
  | succ n ih => simp [Memory.bytes, ih]

/-- The bytes from an offset on, one by one. -/
theorem Memory.bytes_getElem? (m : Memory) (a n k : Nat) :
    (m.bytes a n)[k]? = if k < n then some (m.read (a + k)) else none := by
  induction n generalizing a k with
  | zero => simp [Memory.bytes]
  | succ n ih =>
    cases k with
    | zero => simp [Memory.bytes]
    | succ k =>
      simp only [Memory.bytes, List.getElem?_cons_succ, ih, Nat.add_lt_add_iff_right]
      rw [show a + 1 + k = a + (k + 1) by omega]

/-- Bytes laid out are read back, and every other byte reads as before. -/
theorem Memory.read_writeBytes (m : Memory) (a : Nat) (bs : List Byte) (b : Nat) :
    (m.writeBytes a bs).read b =
      if a ≤ b ∧ b < a + bs.length then bs.getD (b - a) 0 else m.read b := by
  induction bs generalizing m a with
  | nil =>
    have : ¬(a ≤ b ∧ b < a + ([] : List Byte).length) := by simp
    rw [if_neg this]
    rfl
  | cons x bs ih =>
    rw [Memory.writeBytes, ih, Memory.read_write]
    simp only [List.length_cons]
    by_cases hb : b = a
    · simp [hb]
    · by_cases h : a ≤ b ∧ b < a + (bs.length + 1)
      · have h1 : a + 1 ≤ b ∧ b < a + 1 + bs.length := by omega
        rw [if_pos h1, if_pos h, show b - a = (b - (a + 1)) + 1 by omega]
        simp
      · have h1 : ¬(a + 1 ≤ b ∧ b < a + 1 + bs.length) := by omega
        rw [if_neg h1, if_neg h, if_neg hb]

theorem Memory.wf_writeBytes {m : Memory} (hm : m.wf) (a : Nat) (bs : List Byte) :
    (m.writeBytes a bs).wf := by
  induction bs generalizing m a with
  | nil => exact hm
  | cons x bs ih => exact ih (Memory.wf_write hm _ _) _

/-- Bytes laid out list no offset but those they cover. -/
theorem Memory.mem_writeBytes {m : Memory} {a : Nat} {bs : List Byte} {c : Host.Cell}
    (h : c ∈ m.writeBytes a bs) : (a ≤ c.1 ∧ c.1 < a + bs.length) ∨ c ∈ m := by
  induction bs generalizing m a with
  | nil => exact .inr h
  | cons x bs ih =>
    simp only [List.length_cons]
    rcases ih h with h | h
    · exact .inl (by omega)
    · rcases Memory.mem_write h with h | h
      · exact .inl (by omega)
      · exact .inr h

/-- The memory of the reset state is canonical. -/
theorem State.reset_mem_wf : State.reset.mem.wf := by decide

end Sys2Proof.Machine
end

