-- ==== Sys2Proof/Laws/State.lean ====
section
/-! SUPPORT. What each update of State leaves in each field, one lemma per field per update, and what
it leaves in each register and byte. -/

namespace Sys2Proof.Machine

variable (s : State)

/-! ### setReg -/

@[simp] theorem State.setReg_x (i : RegIdx) (v : Word) : (s.setReg i v).x = s.x.set i.toNat v i.isLt := rfl
@[simp] theorem State.setReg_ip (i : RegIdx) (v : Word) : (s.setReg i v).ip = s.ip := rfl
@[simp] theorem State.setReg_esp (i : RegIdx) (v : Word) : (s.setReg i v).esp = s.esp := rfl
@[simp] theorem State.setReg_flags (i : RegIdx) (v : Word) : (s.setReg i v).flags = s.flags := rfl
@[simp] theorem State.setReg_mem (i : RegIdx) (v : Word) : (s.setReg i v).mem = s.mem := rfl
@[simp] theorem State.setReg_status (i : RegIdx) (v : Word) : (s.setReg i v).status = s.status := rfl
@[simp] theorem State.setReg_faultRecord (i : RegIdx) (v : Word) : (s.setReg i v).faultRecord = s.faultRecord := rfl
@[simp] theorem State.setReg_out (i : RegIdx) (v : Word) : (s.setReg i v).out = s.out := rfl
@[simp] theorem State.setReg_cfg (i : RegIdx) (v : Word) : (s.setReg i v).cfg = s.cfg := rfl
@[simp] theorem State.setReg_byte (i : RegIdx) (v : Word) (a : Nat) : (s.setReg i v).byte a = s.byte a := rfl

/-! ### memWrite -/

@[simp] theorem State.memWrite_x (w : Width) (a : Nat) (v : Word) : (s.memWrite w a v).x = s.x := rfl
@[simp] theorem State.memWrite_ip (w : Width) (a : Nat) (v : Word) : (s.memWrite w a v).ip = s.ip := rfl
@[simp] theorem State.memWrite_esp (w : Width) (a : Nat) (v : Word) : (s.memWrite w a v).esp = s.esp := rfl
@[simp] theorem State.memWrite_flags (w : Width) (a : Nat) (v : Word) : (s.memWrite w a v).flags = s.flags := rfl
@[simp] theorem State.memWrite_mem (w : Width) (a : Nat) (v : Word) : (s.memWrite w a v).mem = s.mem.writeLE a w.bytes v.toNat := rfl
@[simp] theorem State.memWrite_status (w : Width) (a : Nat) (v : Word) : (s.memWrite w a v).status = s.status := rfl
@[simp] theorem State.memWrite_faultRecord (w : Width) (a : Nat) (v : Word) : (s.memWrite w a v).faultRecord = s.faultRecord := rfl
@[simp] theorem State.memWrite_out (w : Width) (a : Nat) (v : Word) : (s.memWrite w a v).out = s.out := rfl
@[simp] theorem State.memWrite_cfg (w : Width) (a : Nat) (v : Word) : (s.memWrite w a v).cfg = s.cfg := rfl
@[simp] theorem State.memWrite_reg (w : Width) (a : Nat) (v : Word) (j : RegIdx) : (s.memWrite w a v).reg j = s.reg j := rfl

/-! ### setEsp -/

@[simp] theorem State.setEsp_x (v : Word) : (s.setEsp v).x = s.x := rfl
@[simp] theorem State.setEsp_ip (v : Word) : (s.setEsp v).ip = s.ip := rfl
@[simp] theorem State.setEsp_esp (v : Word) : (s.setEsp v).esp = v := rfl
@[simp] theorem State.setEsp_flags (v : Word) : (s.setEsp v).flags = s.flags := rfl
@[simp] theorem State.setEsp_mem (v : Word) : (s.setEsp v).mem = s.mem := rfl
@[simp] theorem State.setEsp_status (v : Word) : (s.setEsp v).status = s.status := rfl
@[simp] theorem State.setEsp_faultRecord (v : Word) : (s.setEsp v).faultRecord = s.faultRecord := rfl
@[simp] theorem State.setEsp_out (v : Word) : (s.setEsp v).out = s.out := rfl
@[simp] theorem State.setEsp_cfg (v : Word) : (s.setEsp v).cfg = s.cfg := rfl
@[simp] theorem State.setEsp_reg (v : Word) (j : RegIdx) : (s.setEsp v).reg j = s.reg j := rfl
@[simp] theorem State.setEsp_byte (v : Word) (a : Nat) : (s.setEsp v).byte a = s.byte a := rfl

/-! ### setFlags -/

@[simp] theorem State.setFlags_x (f : Flags) : (s.setFlags f).x = s.x := rfl
@[simp] theorem State.setFlags_ip (f : Flags) : (s.setFlags f).ip = s.ip := rfl
@[simp] theorem State.setFlags_esp (f : Flags) : (s.setFlags f).esp = s.esp := rfl
@[simp] theorem State.setFlags_flags (f : Flags) : (s.setFlags f).flags = f := rfl
@[simp] theorem State.setFlags_mem (f : Flags) : (s.setFlags f).mem = s.mem := rfl
@[simp] theorem State.setFlags_status (f : Flags) : (s.setFlags f).status = s.status := rfl
@[simp] theorem State.setFlags_faultRecord (f : Flags) : (s.setFlags f).faultRecord = s.faultRecord := rfl
@[simp] theorem State.setFlags_out (f : Flags) : (s.setFlags f).out = s.out := rfl
@[simp] theorem State.setFlags_cfg (f : Flags) : (s.setFlags f).cfg = s.cfg := rfl
@[simp] theorem State.setFlags_reg (f : Flags) (j : RegIdx) : (s.setFlags f).reg j = s.reg j := rfl
@[simp] theorem State.setFlags_byte (f : Flags) (a : Nat) : (s.setFlags f).byte a = s.byte a := rfl

/-! ### emit -/

@[simp] theorem State.emit_x (v : Word) : (s.emit v).x = s.x := rfl
@[simp] theorem State.emit_ip (v : Word) : (s.emit v).ip = s.ip := rfl
@[simp] theorem State.emit_esp (v : Word) : (s.emit v).esp = s.esp := rfl
@[simp] theorem State.emit_flags (v : Word) : (s.emit v).flags = s.flags := rfl
@[simp] theorem State.emit_mem (v : Word) : (s.emit v).mem = s.mem := rfl
@[simp] theorem State.emit_status (v : Word) : (s.emit v).status = s.status := rfl
@[simp] theorem State.emit_faultRecord (v : Word) : (s.emit v).faultRecord = s.faultRecord := rfl
@[simp] theorem State.emit_out (v : Word) : (s.emit v).out = s.out ++ [v] := rfl
@[simp] theorem State.emit_cfg (v : Word) : (s.emit v).cfg = s.cfg := rfl
@[simp] theorem State.emit_reg (v : Word) (j : RegIdx) : (s.emit v).reg j = s.reg j := rfl
@[simp] theorem State.emit_byte (v : Word) (a : Nat) : (s.emit v).byte a = s.byte a := rfl

/-! ### advance -/

@[simp] theorem State.advance_x (v : Word) : (s.advance v).x = s.x := rfl
@[simp] theorem State.advance_ip (v : Word) : (s.advance v).ip = s.ip + v := rfl
@[simp] theorem State.advance_esp (v : Word) : (s.advance v).esp = s.esp := rfl
@[simp] theorem State.advance_flags (v : Word) : (s.advance v).flags = s.flags := rfl
@[simp] theorem State.advance_mem (v : Word) : (s.advance v).mem = s.mem := rfl
@[simp] theorem State.advance_status (v : Word) : (s.advance v).status = s.status := rfl
@[simp] theorem State.advance_faultRecord (v : Word) : (s.advance v).faultRecord = s.faultRecord := rfl
@[simp] theorem State.advance_out (v : Word) : (s.advance v).out = s.out := rfl
@[simp] theorem State.advance_cfg (v : Word) : (s.advance v).cfg = s.cfg := rfl
@[simp] theorem State.advance_reg (v : Word) (j : RegIdx) : (s.advance v).reg j = s.reg j := rfl
@[simp] theorem State.advance_byte (v : Word) (a : Nat) : (s.advance v).byte a = s.byte a := rfl

/-! ### halt -/

@[simp] theorem State.halt_x : (s.halt).x = s.x := rfl
@[simp] theorem State.halt_ip : (s.halt).ip = s.ip := rfl
@[simp] theorem State.halt_esp : (s.halt).esp = s.esp := rfl
@[simp] theorem State.halt_flags : (s.halt).flags = s.flags := rfl
@[simp] theorem State.halt_mem : (s.halt).mem = s.mem := rfl
@[simp] theorem State.halt_status : (s.halt).status = .halted := rfl
@[simp] theorem State.halt_faultRecord : (s.halt).faultRecord = s.faultRecord := rfl
@[simp] theorem State.halt_out : (s.halt).out = s.out := rfl
@[simp] theorem State.halt_cfg : (s.halt).cfg = s.cfg := rfl
@[simp] theorem State.halt_reg (j : RegIdx) : (s.halt).reg j = s.reg j := rfl
@[simp] theorem State.halt_byte (a : Nat) : (s.halt).byte a = s.byte a := rfl

/-! ### raise -/

@[simp] theorem State.raise_x (k : FaultKind) (o : Option (BitVec 5)) (n : FaultInfo) : (s.raise k o n).x = s.x := rfl
@[simp] theorem State.raise_ip (k : FaultKind) (o : Option (BitVec 5)) (n : FaultInfo) : (s.raise k o n).ip = s.ip := rfl
@[simp] theorem State.raise_esp (k : FaultKind) (o : Option (BitVec 5)) (n : FaultInfo) : (s.raise k o n).esp = s.esp := rfl
@[simp] theorem State.raise_flags (k : FaultKind) (o : Option (BitVec 5)) (n : FaultInfo) : (s.raise k o n).flags = s.flags := rfl
@[simp] theorem State.raise_mem (k : FaultKind) (o : Option (BitVec 5)) (n : FaultInfo) : (s.raise k o n).mem = s.mem := rfl
@[simp] theorem State.raise_status (k : FaultKind) (o : Option (BitVec 5)) (n : FaultInfo) : (s.raise k o n).status = .faulted k := rfl
@[simp] theorem State.raise_faultRecord (k : FaultKind) (o : Option (BitVec 5)) (n : FaultInfo) : (s.raise k o n).faultRecord = some ⟨k, s.ip, o, n⟩ := rfl
@[simp] theorem State.raise_out (k : FaultKind) (o : Option (BitVec 5)) (n : FaultInfo) : (s.raise k o n).out = s.out := rfl
@[simp] theorem State.raise_cfg (k : FaultKind) (o : Option (BitVec 5)) (n : FaultInfo) : (s.raise k o n).cfg = s.cfg := rfl
@[simp] theorem State.raise_reg (k : FaultKind) (o : Option (BitVec 5)) (n : FaultInfo) (j : RegIdx) : (s.raise k o n).reg j = s.reg j := rfl
@[simp] theorem State.raise_byte (k : FaultKind) (o : Option (BitVec 5)) (n : FaultInfo) (a : Nat) : (s.raise k o n).byte a = s.byte a := rfl

/-! ### Registers -/

/-- A write of a register is read back there and nowhere else. -/
@[simp] theorem State.reg_setReg (i j : RegIdx) (v : Word) :
    (s.setReg i v).reg j = if j = i then v else s.reg j := by
  simp only [State.reg, State.setReg, Vector.getElem_set]
  by_cases h : j = i
  · simp [h]
  · have : i.toNat ≠ j.toNat := fun e => h (BitVec.eq_of_toNat_eq e.symm)
    simp [h, this]

/-! ### Names for one update in terms of another -/

@[simp] theorem State.raiseIn_eq (op : Op) (k : FaultKind) (n : FaultInfo) :
    s.raiseIn op k n = s.raise k (some (s.cfg.opcode op)) n := rfl

@[simp] theorem State.past_eq (w : Width) (src : Src) :
    s.past w src = s.advance (BitVec.ofNat 64 (src.length w)) := rfl

end Sys2Proof.Machine
end

