-- ==== Sys2Proof/Laws/Operands.lean ====
section
/-! SUPPORT. The laws of operands: what truncation, sign extension, loads and stores are as numbers,
when the bounds check refuses, what a store changes and keeps, and what each way of resolving operands
can answer. -/

namespace Sys2Proof.Machine

/-! ### Values of `8·W` bits -/

@[simp] theorem truncate_toNat (w : Width) (v : Word) :
    (truncate w v).toNat = v.toNat % 2 ^ w.bits := by
  have h : v.toNat % 2 ^ w.bits < 2 ^ 64 :=
    (Nat.mod_lt _ (by positivity)).trans_le (Nat.pow_le_pow_right (by decide) w.bits_le)
  simp only [truncate, BitVec.toNat_setWidth, Nat.mod_eq_of_lt h]

/-- Sign extension adds, modulo `2^64`, the value's two's-complement reading. -/
theorem add_signExtend (w : Width) (v ip : Word) (h : v.toNat < 2 ^ w.bits) :
    ip + signExtend w v = BitVec.ofInt 64 (ip.toNat + signedValue w v.toNat) := by
  have e : signExtend w v = BitVec.ofInt 64 (signedValue w v.toNat) := by
    apply BitVec.eq_of_toInt_eq
    have hp := w.bits_pos
    rw [signExtend, BitVec.toInt_signExtend_of_le w.bits_le, BitVec.toInt_ofInt,
      BitVec.toInt_eq_toNat_cond, BitVec.toNat_setWidth, Nat.mod_eq_of_lt h, signedValue]
    have hpow : 2 ^ w.bits = 2 * 2 ^ (w.bits - 1) := by rw [← pow_succ']; congr 1; omega
    have hle : 2 ^ (w.bits - 1) ≤ 2 ^ 63 :=
      Nat.pow_le_pow_right (by decide) (by have := w.bits_le; omega)
    have hz : ((2 : Int) ^ w.bits) = ((2 ^ w.bits : Nat) : Int) := by push_cast; rfl
    rw [hz]
    rw [hpow] at h ⊢
    generalize 2 ^ (w.bits - 1) = half at h hle ⊢
    split_ifs <;> rw [Int.bmod_eq_of_le] <;> omega
  rw [e, BitVec.ofInt_add, BitVec.ofInt_natCast, BitVec.ofNat_toNat, BitVec.setWidth_eq]

/-- A register after a write of width `W`, as a number (40_execute_common R91). -/
theorem narrowWrite_toNat (mode : NarrowWrite) (w : Width) (old v : Word) :
    (narrowWrite mode w old v).toNat =
      match mode with
      | .merge => old.toNat / 2 ^ w.bits * 2 ^ w.bits + v.toNat % 2 ^ w.bits
      | .zeroExtend => v.toNat % 2 ^ w.bits := by
  cases mode with
  | zeroExtend => exact truncate_toNat w v
  | merge =>
    have hlt : v.toNat % 2 ^ w.bits < 2 ^ w.bits := Nat.mod_lt _ (by positivity)
    have hle : old.toNat / 2 ^ w.bits * 2 ^ w.bits < 2 ^ 64 :=
      (Nat.div_mul_le_self _ _).trans_lt old.isLt
    simp only [narrowWrite, BitVec.toNat_or, BitVec.toNat_shiftLeft, BitVec.toNat_ushiftRight,
      truncate_toNat, Nat.shiftRight_eq_div_pow, Nat.shiftLeft_eq, Nat.mod_eq_of_lt hle]
    rw [← Nat.shiftLeft_eq, ← Nat.shiftLeft_add_eq_or_of_lt hlt]

/-! ### The layout -/

/-- What 00_scope R5's constraints give about the boundaries. -/
theorem Config.layout_of_WF {c : Config} (h : c.WF) :
    c.stackSize < 2 ^ 64 ∧ c.memLimit < 2 ^ 64 ∧ c.codeSize + 16 ≤ c.memLimit ∧
      c.stackBase + c.stackSize = c.memLimit ∧ c.memLimit + 10 ≤ c.memTotal := by
  obtain ⟨hp, hg, -, ht⟩ := h
  unfold Config.memTotal Config.memLimit Config.stackSize at ht
  unfold Config.memTotal Config.memLimit Config.stackBase Config.stackSize
  refine ⟨?_, ?_, ?_, rfl, ?_⟩ <;> omega

/-! ### The bounds check -/

theorem admits_iff (s : State) (w : Width) (a : Word) :
    admits s w a = true ↔ a.toNat + w.bytes ≤ s.cfg.memLimit := by
  simp [admits]

/-- The destination's check passes exactly in bounds. -/
theorem dst_refused_eq_none {s : State} {w : Width} {d : Dst} :
    (dstPlace s d).refused s w = none ↔ inBounds s w (dstAddress s d) = true := by
  cases d <;> simp [dstPlace, Place.refused, dstAddress, inBounds, admits]

/-- The source's check passes exactly in bounds. -/
theorem src_refused_eq_none {s : State} {w : Width} {src : Src} :
    (srcLoc s src).refused s w = none ↔ inBounds s w (srcAddress s src) = true := by
  cases src <;> simp [srcLoc, Loc.refused, Place.refused, srcAddress, inBounds, admits]

/-- The destination's check refuses the address it resolves to, out of bounds. -/
theorem dst_refused_eq_some {s : State} {w : Width} {d : Dst} {a : Word} :
    (dstPlace s d).refused s w = some a ↔
      dstAddress s d = some a ∧ s.cfg.memLimit < a.toNat + w.bytes := by
  cases d with
  | reg => simp [dstPlace, Place.refused, dstAddress]
  | memReg d =>
    simp only [dstPlace, Place.refused, dstAddress, admits, Option.some.injEq]
    by_cases h : (s.reg d).toNat + w.bytes ≤ s.cfg.memLimit
    · simp only [h, decide_true, if_true, reduceCtorEq, false_iff, not_and, not_lt]
      rintro rfl
      exact h
    · simp only [h, decide_false, Bool.false_eq_true, if_false, Option.some.injEq]
      exact ⟨fun e => ⟨e, e ▸ not_le.1 h⟩, fun e => e.1⟩

/-- The source's check refuses the address it resolves to, out of bounds. -/
theorem src_refused_eq_some {s : State} {w : Width} {src : Src} {a : Word} :
    (srcLoc s src).refused s w = some a ↔
      srcAddress s src = some a ∧ s.cfg.memLimit < a.toNat + w.bytes := by
  have key : ∀ b : Word, (Place.mem b).refused s w = some a ↔
      some b = some a ∧ s.cfg.memLimit < a.toNat + w.bytes := fun b => by
    simp only [Place.refused, admits, Option.some.injEq]
    by_cases h : b.toNat + w.bytes ≤ s.cfg.memLimit
    · simp only [h, decide_true, if_true, reduceCtorEq, false_iff, not_and, not_lt]
      rintro rfl
      exact h
    · simp only [h, decide_false, Bool.false_eq_true, if_false, Option.some.injEq]
      exact ⟨fun e => ⟨e, e ▸ not_le.1 h⟩, fun e => e.1⟩
  cases src with
  | reg => simp [srcLoc, Loc.refused, Place.refused, srcAddress]
  | memReg i => exact key _
  | imm => simp [srcLoc, Loc.refused, srcAddress]
  | memImm v => exact key _

/-! ### Loads -/

theorem State.littleEndian_eq (s : State) (a n : Nat) : s.littleEndian a n = s.mem.readLE a n :=
  (Memory.readLE_eq_sum _ _ _).symm

theorem State.littleEndian_lt (s : State) (a n : Nat) : s.littleEndian a n < 2 ^ (8 * n) := by
  rw [State.littleEndian_eq]
  exact Memory.readLE_lt _ _ _

@[simp] theorem State.memRead_toNat (s : State) (w : Width) (a : Nat) :
    (s.memRead w a).toNat = s.littleEndian a w.bytes := by
  have h := s.littleEndian_lt a w.bytes
  have h64 : (2 : Nat) ^ (8 * w.bytes) ≤ 2 ^ 64 := Nat.pow_le_pow_right (by decide) w.bits_le
  rw [State.memRead, BitVec.toNat_ofNat, State.littleEndian_eq] at *
  exact Nat.mod_eq_of_lt (h.trans_le h64)

/-- A load of a place is its value. -/
@[simp] theorem Place.load_toNat (p : Place) (s : State) (w : Width) :
    (p.load s w).toNat = p.value s w := by
  cases p <;> simp [Place.load, Place.value]

theorem Place.value_lt (p : Place) (s : State) (w : Width) : p.value s w < 2 ^ w.bits := by
  cases p with
  | reg i => exact Nat.mod_lt _ (by positivity)
  | mem a => exact s.littleEndian_lt _ _

/-- A literal that fits in the immediate bytes is loaded as it is. -/
theorem Src.load_toNat {w : Width} {src : Src} (h : src.fits w = true) (s : State) :
    ((srcLoc s src).load s w).toNat = srcValue s w src := by
  cases src with
  | imm v =>
    simp only [Src.fits, decide_eq_true_eq] at h
    simp [srcLoc, Loc.load, srcValue, Loc.value, Nat.mod_eq_of_lt h]
  | _ => simp [srcLoc, Loc.load, srcValue, Loc.value]

theorem srcValue_lt {w : Width} {src : Src} (h : src.fits w = true) (s : State) :
    srcValue s w src < 2 ^ w.bits := by
  cases src with
  | imm v => simpa [srcValue, srcLoc, Loc.value, Src.fits] using h
  | reg i => exact Place.value_lt (.reg i) s w
  | memReg i => exact Place.value_lt (.mem (s.reg i)) s w
  | memImm v => exact Place.value_lt (.mem v) s w

/-! ### Stores -/

section
variable (p : Place) (s : State) (w : Width) (v : Word)

@[simp] theorem Place.store_ip : (p.store s w v).ip = s.ip := by cases p <;> rfl
@[simp] theorem Place.store_esp : (p.store s w v).esp = s.esp := by cases p <;> rfl
@[simp] theorem Place.store_flags : (p.store s w v).flags = s.flags := by cases p <;> rfl
@[simp] theorem Place.store_status : (p.store s w v).status = s.status := by cases p <;> rfl
@[simp] theorem Place.store_faultRecord : (p.store s w v).faultRecord = s.faultRecord := by
  cases p <;> rfl
@[simp] theorem Place.store_out : (p.store s w v).out = s.out := by cases p <;> rfl
@[simp] theorem Place.store_cfg : (p.store s w v).cfg = s.cfg := by cases p <;> rfl

/-- What a memory write of width `W` leaves at each offset. -/
theorem State.memWrite_byte (a b : Nat) :
    (s.memWrite w a v).byte b =
      if a ≤ b ∧ b < a + w.bytes then BitVec.ofNat 8 (v.toNat / 2 ^ (8 * (b - a)))
      else s.byte b :=
  Memory.read_writeLE _ _ _ _ _

/-- What a store leaves in each register. -/
theorem Place.store_reg (j : RegIdx) :
    (p.store s w v).reg j =
      if p = .reg j then narrowWrite s.cfg.narrowWrite w (s.reg j) v else s.reg j := by
  cases p with
  | reg i =>
    simp only [Place.store, State.reg_setReg, Place.reg.injEq, eq_comm (a := i)]
    by_cases h : j = i
    · rw [if_pos h, if_pos h, h]
    · rw [if_neg h, if_neg h]
  | mem a => simp [Place.store]

/-- A store leaves its value at the place and changes nothing else. -/
theorem Place.store_holds : p.Holds w (v.toNat % 2 ^ w.bits) s (p.store s w v) := by
  cases p with
  | reg i =>
    refine ⟨?_, fun j hj => ?_, fun b => rfl⟩
    · rw [Place.store_reg, if_pos rfl, narrowWrite_toNat]
      all_goals cases s.cfg.narrowWrite <;> rfl
    · rw [Place.store_reg, if_neg (by simpa [eq_comm] using hj)]
  | mem a =>
    refine ⟨fun k hk => ?_, fun b hb => ?_, fun j => rfl⟩
    · have h1 : a.toNat ≤ a.toNat + k ∧ a.toNat + k < a.toNat + w.bytes := by omega
      rw [Place.store, State.memWrite_byte, if_pos h1, truncate_toNat, Nat.add_sub_cancel_left]
      rfl
    · rw [Place.store, State.memWrite_byte, if_neg (by omega)]

/-- A store leaves alone every byte outside the span of a memory place. -/
theorem Place.store_byte_outside (b : Nat)
    (h : ∀ a, p = .mem a → b < a.toNat ∨ a.toNat + w.bytes ≤ b) :
    (p.store s w v).byte b = s.byte b := by
  cases p with
  | reg i => rfl
  | mem a =>
    have := h a rfl
    rw [Place.store, State.memWrite_byte, if_neg (by omega)]

/-- The span of a memory place that passed its check ends at `MEM_LIMIT` or below. -/
theorem Place.span_le {a : Word} (h : (Place.mem a).refused s w = none) :
    a.toNat + w.bytes ≤ s.cfg.memLimit := by
  by_contra hn
  simp [Place.refused, admits, hn] at h

/-- A store keeps memory canonical. -/
theorem Place.store_mem_wf (h : s.mem.wf) : (p.store s w v).mem.wf := by
  cases p with
  | reg i => exact h
  | mem a => exact Memory.wf_writeLE h _ _ _

/-- A store the bounds check let pass lists no offset at or above `MEM_LIMIT`. -/
theorem Place.store_mem_lt (hp : p.refused s w = none)
    (h : ∀ cell ∈ s.mem, cell.1 < s.cfg.memLimit) :
    ∀ cell ∈ (p.store s w v).mem, cell.1 < s.cfg.memLimit := by
  cases p with
  | reg i => exact h
  | mem a =>
    intro cell hc
    have ha := Place.span_le s w hp
    rcases Memory.mem_writeLE hc with hc | hc
    · omega
    · exact h cell hc

end

/-! ### What resolving operands answers -/

/-- In bounds, the source resolves to its location. -/
theorem withSrc_of_inBounds {w : Width} {src : Src} {s : State} (op : Op) (k : Loc → Result)
    (h : inBounds s w (srcAddress s src) = true) : withSrc op w src s k = k (srcLoc s src) := by
  rw [withSrc, src_refused_eq_none.2 h]

/-- Out of bounds, the source faults with its address. -/
theorem withSrc_of_outOfBounds {w : Width} {src : Src} {s : State} {a : Word} (op : Op)
    (k : Loc → Result) (ha : srcAddress s src = some a)
    (h : s.cfg.memLimit < a.toNat + w.bytes) : withSrc op w src s k = accessViolation op s a := by
  rw [withSrc, src_refused_eq_some.2 ⟨ha, h⟩]

/-- In bounds, the destination resolves to its place. -/
theorem withDstSrc_of_inBounds {w : Width} {d : Dst} {src : Src} {s : State} (op : Op)
    (k : Place → Loc → Result) (h : inBounds s w (dstAddress s d) = true) :
    withDstSrc op w d src s k = withSrc op w src s (k (dstPlace s d)) := by
  rw [withDstSrc, dst_refused_eq_none.2 h]

/-- Out of bounds, the destination faults with its address. -/
theorem withDstSrc_of_outOfBounds {w : Width} {d : Dst} {src : Src} {s : State} {a : Word}
    (op : Op) (k : Place → Loc → Result) (ha : dstAddress s d = some a)
    (h : s.cfg.memLimit < a.toNat + w.bytes) :
    withDstSrc op w d src s k = accessViolation op s a := by
  rw [withDstSrc, dst_refused_eq_some.2 ⟨ha, h⟩]

/-- If resolving a source answers a next state, either the check refused and the state is the faulted
one, or it passed and the continuation answered. -/
theorem withSrc_next {op : Op} {w : Width} {src : Src} {s t : State} {k : Loc → Result}
    (h : withSrc op w src s k = .next t) :
    (∃ a, srcAddress s src = some a ∧ t = s.raiseIn op .memoryAccessViolation (.address a)) ∨
      ((srcLoc s src).refused s w = none ∧ k (srcLoc s src) = .next t) := by
  unfold withSrc at h
  split at h
  · rename_i a ha
    injection h with h
    exact .inl ⟨a, (src_refused_eq_some.1 ha).1, h.symm⟩
  · rename_i hn
    exact .inr ⟨hn, h⟩

/-- If resolving both operands answers a next state, either a check refused and the state is the
faulted one, or both passed and the continuation answered. -/
theorem withDstSrc_next {op : Op} {w : Width} {d : Dst} {src : Src} {s t : State}
    {k : Place → Loc → Result} (h : withDstSrc op w d src s k = .next t) :
    (∃ a, (dstAddress s d = some a ∨ srcAddress s src = some a) ∧
        t = s.raiseIn op .memoryAccessViolation (.address a)) ∨
      ((dstPlace s d).refused s w = none ∧ (srcLoc s src).refused s w = none ∧
        k (dstPlace s d) (srcLoc s src) = .next t) := by
  unfold withDstSrc at h
  split at h
  · rename_i a ha
    injection h with h
    exact .inl ⟨a, .inl (dst_refused_eq_some.1 ha).1, h.symm⟩
  · rename_i hn
    rcases withSrc_next h with ⟨a, ha, e⟩ | ⟨hs, hk⟩
    · exact .inl ⟨a, .inr ha, e⟩
    · exact .inr ⟨hn, hs, hk⟩

/-- If resolving an operand to be written answers a next state, the check refused, or the operand was
a direct immediate, or the continuation answered for the operand's place. -/
theorem withWritableSrc_next {op : Op} {w : Width} {src : Src} {s t : State} {k : Place → Result}
    (h : withWritableSrc op w src s k = .next t) :
    (∃ a, srcAddress s src = some a ∧ t = s.raiseIn op .memoryAccessViolation (.address a)) ∨
      t = s.raiseIn op .invalidInstruction (.opcode (s.cfg.opcode op)) ∨
      ∃ p, srcLoc s src = .place p ∧ p.refused s w = none ∧ k p = .next t := by
  rcases withSrc_next h with h | ⟨hn, hk⟩
  · exact .inl h
  · cases e : srcLoc s src with
    | place p =>
      rw [e] at hn hk
      exact .inr (.inr ⟨p, rfl, hn, hk⟩)
    | imm v =>
      rw [e] at hk
      injection hk with hk
      exact .inr (.inl hk.symm)

end Sys2Proof.Machine
end

