-- ==== Sys2Proof/Laws/PerInstr.lean ====
section
/-! SUPPORT. A statement about each instruction as syntax: byte 0 of its encoding carries the opcode of
its own operation, and its length lies between 1 and 10 bytes (spec/30_encoding.md R50, R51). -/

namespace Sys2Proof

/-- The instruction's first byte has its operation's code in bits [4:0], and no encoding is empty or
longer than `maxLength`. -/
def Laws.OpcodeField.Statement (i : Instr) : Prop :=
  ∀ c : Config, ((encode c i).head?.map opcField = some (c.opcode i.op)) ∧
    0 < (encode c i).length ∧ (encode c i).length ≤ maxLength

/-- The statement for the bytes of formats `A1R` and `A1I`. -/
theorem encode1_opcode (opc : BitVec 5) (w : Width) (src : Src) :
    ((encode1 opc w src).head?.map opcField = some opc) ∧
      0 < (encode1 opc w src).length ∧ (encode1 opc w src).length ≤ maxLength := by
  have := w.bytes_le
  cases src <;> simp [encode1, Src.immBytes, maxLength] <;> omega

/-- The statement for the bytes of formats `A2R` and `A2I`. -/
theorem encode2_opcode (opc : BitVec 5) (w : Width) (d : Dst) (src : Src) :
    ((encode2 opc w d src).head?.map opcField = some opc) ∧
      0 < (encode2 opc w d src).length ∧ (encode2 opc w d src).length ≤ maxLength := by
  have := w.bytes_le
  cases src <;> simp [encode2, Src.immBytes, maxLength] <;> omega

theorem Laws.OpcodeField.add (w : Width) (d : Dst) (src : Src) :
    Laws.OpcodeField.Statement (.add w d src) :=
  fun c => encode2_opcode (c.opcode .add) w d src

theorem Laws.OpcodeField.sub (w : Width) (d : Dst) (src : Src) :
    Laws.OpcodeField.Statement (.sub w d src) :=
  fun c => encode2_opcode (c.opcode .sub) w d src

theorem Laws.OpcodeField.mul (w : Width) (d : Dst) (src : Src) :
    Laws.OpcodeField.Statement (.mul w d src) :=
  fun c => encode2_opcode (c.opcode .mul) w d src

theorem Laws.OpcodeField.div (w : Width) (d : Dst) (src : Src) :
    Laws.OpcodeField.Statement (.div w d src) :=
  fun c => encode2_opcode (c.opcode .div) w d src

theorem Laws.OpcodeField.mod (w : Width) (d : Dst) (src : Src) :
    Laws.OpcodeField.Statement (.mod w d src) :=
  fun c => encode2_opcode (c.opcode .mod) w d src

theorem Laws.OpcodeField.and (w : Width) (d : Dst) (src : Src) :
    Laws.OpcodeField.Statement (.and w d src) :=
  fun c => encode2_opcode (c.opcode .and) w d src

theorem Laws.OpcodeField.or (w : Width) (d : Dst) (src : Src) :
    Laws.OpcodeField.Statement (.or w d src) :=
  fun c => encode2_opcode (c.opcode .or) w d src

theorem Laws.OpcodeField.xor (w : Width) (d : Dst) (src : Src) :
    Laws.OpcodeField.Statement (.xor w d src) :=
  fun c => encode2_opcode (c.opcode .xor) w d src

theorem Laws.OpcodeField.shl (w : Width) (d : Dst) (src : Src) :
    Laws.OpcodeField.Statement (.shl w d src) :=
  fun c => encode2_opcode (c.opcode .shl) w d src

theorem Laws.OpcodeField.shr (w : Width) (d : Dst) (src : Src) :
    Laws.OpcodeField.Statement (.shr w d src) :=
  fun c => encode2_opcode (c.opcode .shr) w d src

theorem Laws.OpcodeField.mov (w : Width) (d : Dst) (src : Src) :
    Laws.OpcodeField.Statement (.mov w d src) :=
  fun c => encode2_opcode (c.opcode .mov) w d src

theorem Laws.OpcodeField.inc (w : Width) (src : Src) : Laws.OpcodeField.Statement (.inc w src) :=
  fun c => encode1_opcode (c.opcode .inc) w src

theorem Laws.OpcodeField.dec (w : Width) (src : Src) : Laws.OpcodeField.Statement (.dec w src) :=
  fun c => encode1_opcode (c.opcode .dec) w src

theorem Laws.OpcodeField.push (w : Width) (src : Src) : Laws.OpcodeField.Statement (.push w src) :=
  fun c => encode1_opcode (c.opcode .push) w src

theorem Laws.OpcodeField.pop (w : Width) (src : Src) : Laws.OpcodeField.Statement (.pop w src) :=
  fun c => encode1_opcode (c.opcode .pop) w src

theorem Laws.OpcodeField.cmp (w : Width) (d : Dst) (src : Src) :
    Laws.OpcodeField.Statement (.cmp w d src) :=
  fun c => encode2_opcode (c.opcode .cmp) w d src

theorem Laws.OpcodeField.jz (w : Width) (src : Src) : Laws.OpcodeField.Statement (.jz w src) :=
  fun c => encode1_opcode (c.opcode .jz) w src

theorem Laws.OpcodeField.jnz (w : Width) (src : Src) : Laws.OpcodeField.Statement (.jnz w src) :=
  fun c => encode1_opcode (c.opcode .jnz) w src

theorem Laws.OpcodeField.jg (w : Width) (src : Src) : Laws.OpcodeField.Statement (.jg w src) :=
  fun c => encode1_opcode (c.opcode .jg) w src

theorem Laws.OpcodeField.js (w : Width) (src : Src) : Laws.OpcodeField.Statement (.js w src) :=
  fun c => encode1_opcode (c.opcode .js) w src

theorem Laws.OpcodeField.printi (w : Width) (src : Src) : Laws.OpcodeField.Statement (.printi w src) :=
  fun c => encode1_opcode (c.opcode .printi) w src

theorem Laws.OpcodeField.halt : Laws.OpcodeField.Statement .halt :=
  fun c => by simp [encode, Instr.op, maxLength]

end Sys2Proof
end

