-- ==== Sys2Proof/Laws/Step.lean ====
section
/-! SUPPORT. What one instruction and one step can do, said once: every next state of `exec` is one of
eight effects, and every next state of `step` is a fetch fault or an effect of the decoded instruction.
Frames and invariants follow by cases on these. -/

namespace Sys2Proof.Machine

/-! ### The place an instruction writes -/

/-- The width and place of the operand an instruction writes its result or popped value to. -/
def writtenPlace (s : State) : Instr → Option (Width × Place)
  | .add w d _ | .sub w d _ | .mul w d _ | .div w d _ | .mod w d _ | .and w d _ | .or w d _
  | .xor w d _ | .shl w d _ | .shr w d _ | .mov w d _ => some (w, dstPlace s d)
  | .inc w src | .dec w src | .pop w src =>
    match srcLoc s src with
    | .place p => some (w, p)
    | .imm _ => none
  | .push .. | .cmp .. | .jz .. | .jnz .. | .jg .. | .js .. | .printi .. | .halt => none

/-- A register place is the register `registerWritten` names. -/
theorem writtenPlace_reg {s : State} {i : Instr} {w : Width} {j : RegIdx}
    (h : writtenPlace s i = some (w, .reg j)) : registerWritten i = some j := by
  cases i with
  | add w' d src | sub w' d src | mul w' d src | div w' d src | mod w' d src | and w' d src
  | or w' d src | xor w' d src | shl w' d src | shr w' d src | mov w' d src =>
    cases d <;> simp_all [writtenPlace, registerWritten, dstPlace]
  | inc w' src | dec w' src | pop w' src =>
    cases src <;> simp_all [writtenPlace, registerWritten, srcLoc]
  | push w' src | cmp w' d src | jz w' src | jnz w' src | jg w' src | js w' src | printi w' src
  | halt => simp [writtenPlace] at h

/-- A memory place is the span `bytesWritten` names. -/
theorem writtenPlace_mem {s : State} {i : Instr} {w : Width} {a : Word}
    (h : writtenPlace s i = some (w, .mem a)) : bytesWritten s i = some (a.toNat, w.bytes) := by
  cases i with
  | add w' d src | sub w' d src | mul w' d src | div w' d src | mod w' d src | and w' d src
  | or w' d src | xor w' d src | shl w' d src | shr w' d src | mov w' d src =>
    cases d <;> simp_all [writtenPlace, bytesWritten, dstPlace]
  | inc w' src | dec w' src | pop w' src =>
    cases src <;> simp_all [writtenPlace, bytesWritten, srcLoc]
  | push w' src | cmp w' d src | jz w' src | jnz w' src | jg w' src | js w' src | printi w' src
  | halt => simp [writtenPlace] at h

/-! ### The effects of one instruction -/

/-- What `exec i` can do to `s` when it answers a next state. -/
inductive Effect (i : Instr) (s : State) : State → Prop
  /-- A fault the instruction may raise; a bounds fault has a memory-indirect operand. -/
  | faulted (kind : FaultKind) (info : FaultInfo) (hk : kind ∈ possibleFaults i.op)
      (ha : kind = .memoryAccessViolation →
        (∃ d a, instrDst i = some d ∧ dstAddress s d = some a) ∨
          ∃ w src a, instrSrc i = some (w, src) ∧ srcAddress s src = some a) :
      Effect i s (s.raiseIn i.op kind info)
  /-- A result stored at a place that passed its check. -/
  | stored (w : Width) (p : Place) (v n : Word) (hp : writtenPlace s i = some (w, p))
      (hb : p.refused s w = none) : Effect i s ((p.store s w v).advance n)
  /-- A push that fits the stack segment. -/
  | pushed (w : Width) (src : Src) (v n : Word) (hi : i = .push w src)
      (hb : s.esp.toNat + w.bytes ≤ s.cfg.stackSize) :
      Effect i s (((s.memWrite w (s.cfg.stackBase + s.esp.toNat) v).setEsp
        (s.esp + BitVec.ofNat 64 w.bytes)).advance n)
  /-- A pop from a stack that holds enough. -/
  | popped (w : Width) (p : Place) (v n : Word) (hi : i.op = .pop)
      (hp : writtenPlace s i = some (w, p)) (hb : p.refused s w = none)
      (he : w.bytes ≤ s.esp.toNat) :
      Effect i s (((p.store s w v).setEsp (s.esp - BitVec.ofNat 64 w.bytes)).advance n)
  /-- A comparison. -/
  | compared (f : Flags) (n : Word) (hi : i.op = .cmp) (hf : f ≠ .none) :
      Effect i s ((s.setFlags f).advance n)
  /-- A jump, taken or not. -/
  | jumped (n : Word) : Effect i s (s.advance n)
  /-- A value printed. -/
  | printed (v n : Word) (hi : i.op = .printi) : Effect i s ((s.emit v).advance n)
  /-- The end of the run. -/
  | halted (hi : i = .halt) : Effect i s s.halt

/-- A refused operand check of an arity-2 instruction is a fault effect. -/
theorem Effect.ofDstSrc {i : Instr} {s t : State} {w : Width} {d : Dst} {src : Src}
    {k : Place → Loc → Result} (hd : instrDst i = some d) (hs : instrSrc i = some (w, src))
    (hk : .memoryAccessViolation ∈ possibleFaults i.op)
    (h : withDstSrc i.op w d src s k = .next t)
    (go : (dstPlace s d).refused s w = none → k (dstPlace s d) (srcLoc s src) = .next t →
      Effect i s t) : Effect i s t := by
  rcases withDstSrc_next h with ⟨a, ha, rfl⟩ | ⟨hn, -, hk⟩
  · exact .faulted _ _ hk fun _ => ha.imp (fun ha => ⟨d, a, hd, ha⟩) fun ha => ⟨w, src, a, hs, ha⟩
  · exact go hn hk

/-- A refused operand check of an arity-1 instruction is a fault effect. -/
theorem Effect.ofSrc {i : Instr} {s t : State} {w : Width} {src : Src} {k : Loc → Result}
    (hs : instrSrc i = some (w, src)) (hk : .memoryAccessViolation ∈ possibleFaults i.op)
    (h : withSrc i.op w src s k = .next t)
    (go : k (srcLoc s src) = .next t → Effect i s t) : Effect i s t := by
  rcases withSrc_next h with ⟨a, ha, rfl⟩ | ⟨-, hk⟩
  · exact .faulted _ _ hk fun _ => .inr ⟨w, src, a, hs, ha⟩
  · exact go hk

/-- The same for an operand that is written, where a direct immediate is a fault too. -/
theorem Effect.ofWritableSrc {i : Instr} {s t : State} {w : Width} {src : Src}
    {k : Place → Result} (hs : instrSrc i = some (w, src))
    (hm : .memoryAccessViolation ∈ possibleFaults i.op)
    (hi : .invalidInstruction ∈ possibleFaults i.op)
    (h : withWritableSrc i.op w src s k = .next t)
    (go : ∀ p, srcLoc s src = .place p → p.refused s w = none → k p = .next t → Effect i s t) :
    Effect i s t := by
  rcases withWritableSrc_next h with ⟨a, ha, rfl⟩ | rfl | ⟨p, hp, hn, hk⟩
  · exact .faulted _ _ hm fun _ => .inr ⟨w, src, a, hs, ha⟩
  · exact .faulted _ _ hi nofun
  · exact go p hp hn hk

/-- The eight arithmetic operations without a fault of their own. -/
theorem Effect.ofCombine {i : Instr} {s t : State} {w : Width} {d : Dst} {src : Src}
    {f : Word → Word → Word} (hd : instrDst i = some d) (hs : instrSrc i = some (w, src))
    (hp : writtenPlace s i = some (w, dstPlace s d))
    (hk : .memoryAccessViolation ∈ possibleFaults i.op)
    (h : combine i.op f w d src s = .next t) : Effect i s t :=
  Effect.ofDstSrc hd hs hk h fun hn hk => by
    injection hk with hk
    subst hk
    exact .stored w _ _ _ hp hn

/-- `div` and `mod`. -/
theorem Effect.ofCombineNonzero {i : Instr} {s t : State} {w : Width} {d : Dst} {src : Src}
    {f : Word → Word → Word} (hd : instrDst i = some d) (hs : instrSrc i = some (w, src))
    (hp : writtenPlace s i = some (w, dstPlace s d))
    (hk : .memoryAccessViolation ∈ possibleFaults i.op)
    (hz : .divideByZero ∈ possibleFaults i.op)
    (h : combineNonzero i.op f w d src s = .next t) : Effect i s t :=
  Effect.ofDstSrc hd hs hk h fun hn hk => by
    split at hk <;> injection hk with hk <;> subst hk
    · exact .faulted _ _ hz nofun
    · exact .stored w _ _ _ hp hn

/-- `inc` and `dec`. -/
theorem Effect.ofAdjust {i : Instr} {s t : State} {w : Width} {src : Src} {f : Word → Word}
    (hs : instrSrc i = some (w, src))
    (hp : ∀ p, srcLoc s src = .place p → writtenPlace s i = some (w, p))
    (hm : .memoryAccessViolation ∈ possibleFaults i.op)
    (hi : .invalidInstruction ∈ possibleFaults i.op)
    (h : adjust i.op f w src s = .next t) : Effect i s t :=
  Effect.ofWritableSrc hs hm hi h fun p e hn hk => by
    injection hk with hk
    subst hk
    exact .stored w p _ _ (hp p e) hn

/-- The jumps. -/
theorem Effect.ofJump {i : Instr} {s t : State} {w : Width} {src : Src} {taken : Flags → Bool}
    (hs : instrSrc i = some (w, src)) (hm : .memoryAccessViolation ∈ possibleFaults i.op)
    (h : jumpIf i.op taken w src s = .next t) : Effect i s t :=
  Effect.ofSrc hs hm h fun hk => by
    split at hk <;> injection hk with hk <;> subst hk
    · exact .jumped _
    · exact .jumped _

theorem compareFlags_ne_none (a b : Word) : compareFlags a b ≠ .none := by
  unfold compareFlags
  split_ifs <;> simp

/-- Everything one instruction can do. -/
theorem exec_effect {i : Instr} {s t : State} (h : exec i s = .next t) : Effect i s t := by
  cases i with
  | add w d src | sub w d src | mul w d src | and w d src | or w d src | xor w d src
  | shl w d src | shr w d src =>
    simp only [exec, execAdd, execSub, execMul, execAnd, execOr, execXor, execShl, execShr] at h
    exact Effect.ofCombine rfl rfl rfl (by simp [possibleFaults, Instr.op]) h
  | div w d src | mod w d src =>
    simp only [exec, execDiv, execMod] at h
    exact Effect.ofCombineNonzero rfl rfl rfl (by simp [possibleFaults, Instr.op]) (by simp [possibleFaults, Instr.op]) h
  | mov w d src =>
    simp only [exec, execMov] at h
    exact Effect.ofDstSrc (i := .mov w d src) rfl rfl (by simp [possibleFaults, Instr.op]) h fun hn hk => by
      injection hk with hk
      subst hk
      exact .stored w _ _ _ rfl hn
  | inc w src | dec w src =>
    simp only [exec, execInc, execDec] at h
    exact Effect.ofAdjust rfl (fun p hp => by simp [writtenPlace, hp]) (by simp [possibleFaults, Instr.op]) (by simp [possibleFaults, Instr.op]) h
  | push w src =>
    simp only [exec, execPush] at h
    exact Effect.ofSrc (i := .push w src) rfl (by simp [possibleFaults, Instr.op]) h fun hk => by
      split at hk <;> injection hk with hk <;> subst hk
      · exact .faulted _ _ (by simp [possibleFaults, Instr.op]) nofun
      · rename_i hb
        exact .pushed w src _ _ rfl (not_lt.1 hb)
  | pop w src =>
    simp only [exec, execPop] at h
    exact Effect.ofWritableSrc (i := .pop w src) rfl (by simp [possibleFaults, Instr.op]) (by simp [possibleFaults, Instr.op]) h
      fun p hp hn hk => by
        split at hk
        · injection hk with hk
          subst hk
          exact .faulted _ _ (by simp [possibleFaults, Instr.op]) nofun
        · split at hk
          · cases hk
          · rename_i hb _
            injection hk with hk
            subst hk
            exact .popped w p _ _ rfl (by simp [writtenPlace, hp]) hn (not_lt.1 hb)
  | cmp w d src =>
    simp only [exec, execCmp] at h
    exact Effect.ofDstSrc (i := .cmp w d src) rfl rfl (by simp [possibleFaults, Instr.op]) h fun _ hk => by
      injection hk with hk
      subst hk
      exact .compared _ _ rfl (compareFlags_ne_none _ _)
  | jz w src | jnz w src | jg w src | js w src =>
    simp only [exec, execJz, execJnz, execJg, execJs] at h
    exact Effect.ofJump rfl (by simp [possibleFaults, Instr.op]) h
  | printi w src =>
    simp only [exec, execPrinti] at h
    exact Effect.ofSrc (i := .printi w src) rfl (by simp [possibleFaults, Instr.op]) h fun hk => by
      injection hk with hk
      subst hk
      exact .printed _ _ rfl
  | halt =>
    injection h with h
    subst h
    exact .halted rfl

/-! ### The step -/

/-- The bytes a fetch offers the decoder, one by one. -/
theorem State.fetchBytes_getElem? (s : State) (k : Nat) :
    s.fetchBytes[k]? =
      if k < min maxLength (s.cfg.memTotal - s.ip.toNat) then some (s.byte (s.ip.toNat + k))
      else none :=
  Memory.bytes_getElem? _ _ _ _

/-- A Running machine with `ip` in the code segment does what its decoded bytes say. -/
theorem step_running {s : State} (hr : s.status = .running) (hip : s.ip.toNat < s.cfg.codeSize) :
    step s =
      match decode s.cfg s.fetchBytes with
      | .ok (i, _) => exec i s
      | .error (.unknownOpcode opc) | .error (.immediateDestination opc) =>
        .next (s.raise .invalidInstruction (some opc) (.opcode opc))
      | .error .truncated => .fault .beyondMemory := by
  unfold step State.fetch
  rw [hr]
  simp only [not_le.2 hip, if_false]
  rcases decode s.cfg s.fetchBytes with (_ | _ | _) | ⟨i, rest⟩ <;> rfl

/-- Everything one step can do: it starts Running and either faults in fetch or decode, leaving the
status and the record changed, or executes the instruction its bytes decode to. -/
theorem step_cases {s t : State} (h : step s = .next t) :
    s.status = .running ∧
      ((∃ kind opc info, t = s.raise kind opc info) ∨
        ∃ i rest, s.ip.toNat < s.cfg.codeSize ∧ decode s.cfg s.fetchBytes = .ok (i, rest) ∧
          exec i s = .next t) := by
  unfold step State.fetch at h
  cases hs : s.status with
  | halted => simp [hs] at h
  | faulted k => simp [hs] at h
  | running =>
    refine ⟨rfl, ?_⟩
    rw [hs] at h
    by_cases hip : s.cfg.codeSize ≤ s.ip.toNat
    · simp only [hip, if_true] at h
      injection h with h
      exact .inl ⟨_, _, _, h.symm⟩
    · simp only [hip, if_false] at h
      cases hd : decode s.cfg s.fetchBytes with
      | ok r =>
        obtain ⟨i, rest⟩ := r
        rw [hd] at h
        exact .inr ⟨i, rest, not_le.1 hip, rfl, h⟩
      | error e =>
        rw [hd] at h
        cases e with
        | truncated => cases h
        | unknownOpcode opc | immediateDestination opc =>
          injection h with h
          exact .inl ⟨_, _, _, h.symm⟩

end Sys2Proof.Machine
end

