-- ==== Sys2Proof/Tests/Slice0.lean ====
section
/-! SUPPORT. Tests on fixed values. Expected results come from spec/95_test_vectors.md (the row's
name stands in the docstring) or from the encoding rules of spec/30_encoding.md, bytes 0 and 1 being
written out bit by bit; then one witness for the hypotheses of each obligation that has some. -/

open Sys2Proof Sys2Proof.Machine

namespace Sys2Proof.Tests

/-! ### Helpers -/

/-- The machine with the default parameters whose bytecode has these bytes at offset `ip`, zeros
before them, standing at `ip` with these registers set. -/
def loaded (ip : Nat) (bytes : List Byte) (regs : List (RegIdx × Word)) : State :=
  regs.foldl (fun s r => s.setReg r.1 r.2)
    { State.construct Config.default (List.replicate ip 0 ++ bytes) with ip := BitVec.ofNat 64 ip }

/-- Bytes laid out in memory from an offset on. -/
def put (s : State) (a : Nat) (bytes : List Byte) : State :=
  { s with mem := s.mem.writeBytes a bytes }

/-- The other value of `REG_NARROW_WRITE`. -/
def zeroExtending (s : State) : State :=
  { s with cfg := { s.cfg with narrowWrite := .zeroExtend } }

/-- The state after one step, if there is one. -/
def after (s : State) : Option State :=
  match step s with
  | .next t => some t
  | .fault _ | .refused _ => none

/-- One step leads to a state with the property. -/
abbrev ends (s : State) (p : State → Bool) : Prop := (after s).any p = true

/-- One step leads to the fault, and changes nothing else. -/
abbrev faults (s : State) (kind : FaultKind) (opc : BitVec 5) (info : FaultInfo) : Prop :=
  after s = some (faultOf s kind (some opc) info)

/-- The bytes 1 to 8. -/
def counting : List Byte := [1, 2, 3, 4, 5, 6, 7, 8]

/-! ### Well-formedness -/

/-- 30_encoding R55: a literal that the encoding's immediate bytes cannot hold is refused, at every
width that has a larger literal, and the largest that fits is accepted. -/
theorem test_wf_immediate_fits :
    (Instr.mov .byte (.reg 0) (.imm 256)).wf = false ∧
    (Instr.mov .byte (.reg 0) (.imm 255)).wf = true ∧
    (Instr.cmp .short (.memReg 1) (.memImm 0x10000)).wf = false ∧
    (Instr.push .dword (.imm 0x100000000)).wf = false ∧
    (Instr.jz .byte (.memImm 256)).wf = false ∧
    (Instr.inc .byte (.memImm 256)).wf = false := by
  decide

/-- 30_encoding R66: `inc`, `dec` and `pop` have no direct immediate, and `push` has. -/
theorem test_wf_writable :
    (Instr.inc .byte (.imm 5)).wf = false ∧ (Instr.dec .byte (.imm 5)).wf = false ∧
    (Instr.pop .byte (.imm 5)).wf = false ∧ (Instr.push .byte (.imm 5)).wf = true := by
  decide

/-- 30_encoding R72, R73; E3: the assembler's width for a literal is the narrowest, and for a
register qword. -/
theorem test_assembled :
    (Instr.mov .byte (.reg 1) (.imm 255)).assembled = true ∧
    (Instr.mov .short (.reg 1) (.imm 255)).assembled = false ∧
    (Instr.mov .byte (.reg 1) (.imm 256)).assembled = false ∧
    (Instr.mov .dword (.reg 1) (.imm 4294967295)).assembled = true ∧
    (Instr.mov .qword (.reg 1) (.imm 4294967296)).assembled = true ∧
    (Instr.inc .short (.reg 0)).assembled = false := by
  decide

/-- 00_scope R5: a page below 16 bytes, a guard below 10, an opcode map that gives one code twice and
a memory of `2^64` bytes are each refused. -/
theorem test_config_wf :
    Config.default.WF ∧ ¬({ Config.default with pageSize := 15 }).WF ∧
    ¬({ Config.default with guardSize := 9 }).WF ∧
    ¬({ Config.default with opcodeMap := defaultOpcodeMap.set 1 0 }).WF ∧
    ¬({ Config.default with bytecodeLen := 2 ^ 64 }).WF := by
  decide

/-! ### Decoding, from the tables of 30_encoding R57, R61 and 95_test_vectors 2.0 -/

/-- The arithmetic, bitwise and shift words. -/
theorem test_decode_arithmetic :
    decode Config.default [0b10100000, 0b01110110] = .ok (.add .qword (.reg 5) (.memReg 6), []) ∧
    decode Config.default ([0b00100001, 0b11101000] ++ List.replicate 8 0xFF) =
      .ok (.sub .qword (.memReg 1) (.imm 0xFFFFFFFFFFFFFFFF), []) ∧
    decode Config.default [0b00000010, 0b01100001] = .ok (.mul .qword (.reg 0) (.reg 1), []) ∧
    decode Config.default [0b00100011, 0b01101010] = .ok (.div .qword (.memReg 1) (.reg 2), []) ∧
    decode Config.default [0b11000100, 0b01100111] = .ok (.mod .qword (.reg 6) (.reg 7), []) ∧
    decode Config.default [0b00000101, 0b10000000, 0x0F] =
      .ok (.and .byte (.reg 0) (.imm 15), []) ∧
    decode Config.default [0b00000110, 0b10100000, 0x00, 0x01] =
      .ok (.or .short (.reg 0) (.imm 0x100), []) ∧
    decode Config.default [0b10000111, 0b01101100] = .ok (.xor .qword (.memReg 4) (.reg 4), []) ∧
    decode Config.default [0b11101000, 0b10000000, 0x3F] =
      .ok (.shl .byte (.reg 7) (.imm 63), []) ∧
    decode Config.default [0b00001001, 0b01100001] = .ok (.shr .qword (.reg 0) (.reg 1), []) := by
  decide

/-- The mov words. -/
theorem test_decode_mov :
    decode Config.default [0b01101010, 0b01100100] = .ok (.mov .qword (.reg 3) (.reg 4), []) ∧
    decode Config.default [0b01001010, 0b10101000, 0x34, 0x12] =
      .ok (.mov .short (.memReg 2) (.imm 0x1234), []) ∧
    decode Config.default [0b01101010, 0b10110000, 0x68, 0x10] =
      .ok (.mov .short (.reg 3) (.memImm 4200), []) ∧
    decode Config.default [0b00001010, 0b11000000, 0x45, 0x23, 0x01, 0x00] =
      .ok (.mov .dword (.reg 0) (.imm 0x12345), []) := by
  decide

/-- The inc and dec words. -/
theorem test_decode_inc_dec :
    decode Config.default [0b00001011, 0b01100000] = .ok (.inc .qword (.reg 0), []) ∧
    decode Config.default [0b00001100, 0b01110101] = .ok (.dec .qword (.memReg 5), []) ∧
    decode Config.default [0b00001100, 0b10110000, 0x68, 0x10] =
      .ok (.dec .short (.memImm 4200), []) := by
  decide

/-- The push and pop words. -/
theorem test_decode_stack :
    decode Config.default [0b00001101, 0b10000000, 0x0A] = .ok (.push .byte (.imm 10), []) ∧
    decode Config.default [0b00001101, 0b10110000, 0x00, 0x10] =
      .ok (.push .short (.memImm 4096), []) ∧
    decode Config.default [0b00001110, 0b01110011] = .ok (.pop .qword (.memReg 3), []) := by
  decide

/-- The cmp words. -/
theorem test_decode_cmp :
    decode Config.default [0b01101111, 0b10011000, 0x10] =
      .ok (.cmp .byte (.memReg 3) (.memImm 16), []) ∧
    decode Config.default [0b00001111, 0b01100001] = .ok (.cmp .qword (.reg 0) (.reg 1), []) := by
  decide

/-- The jump words. -/
theorem test_decode_jumps :
    decode Config.default [0b00010000, 0b10000000, 0x05] = .ok (.jz .byte (.imm 5), []) ∧
    decode Config.default [0b00010001, 0b01100010] = .ok (.jnz .qword (.reg 2), []) ∧
    decode Config.default [0b00010010, 0b11000000, 0xFF, 0xFF, 0xFF, 0xFF] =
      .ok (.jg .dword (.imm 0xFFFFFFFF), []) ∧
    decode Config.default [0b00010011, 0b10010000, 0x20] = .ok (.js .byte (.memImm 32), []) := by
  decide

/-- The printi and halt words. -/
theorem test_decode_system :
    decode Config.default [0b00010100, 0b01110000] = .ok (.printi .qword (.memReg 0), []) ∧
    decode Config.default [0b11110100, 0b01101111] = .ok (.printi .qword (.reg 7), []) ∧
    decode Config.default [0b00010101] = .ok (.halt, []) ∧
    decode Config.default [0b11110101] = .ok (.halt, []) := by
  decide

/-- 30_encoding R63, R66; VH8, VH9, VI9, VI10, VK15: bytes that are no instruction are refused by
name, and so are bytes that end early. -/
theorem test_decode_refuses :
    decode Config.default [0b00010110] = .error (.unknownOpcode 22) ∧
    decode Config.default [0b11111111] = .error (.unknownOpcode 31) ∧
    decode Config.default [0b00001011, 0b10000000, 5] = .error (.immediateDestination 11) ∧
    decode Config.default [0b00001100, 0b10000000, 5] = .error (.immediateDestination 12) ∧
    decode Config.default [0b00001110, 0b10000000, 5] = .error (.immediateDestination 14) ∧
    decode Config.default [] = .error .truncated ∧
    decode Config.default [0b00000000] = .error .truncated ∧
    decode Config.default [0b00000000, 0b10100000, 5] = .error .truncated := by
  decide

/-- E1: the encoder writes the four instructions of the source's end-to-end scenario. -/
theorem test_encode_scenario :
    ([.mov .byte (.reg 0) (.imm 10), .add .byte (.reg 0) (.imm 5), .printi .qword (.reg 0),
      .halt].map (encode Config.default)).flatten =
      [0x0A, 0x80, 0x0A, 0x00, 0x80, 0x05, 0x14, 0x60, 0x15] := by
  decide

/-- The host's view of the table: byte 0 is bits 7 to 0 of the word, bits from `nbits` up are 0. -/
theorem test_table_word :
    decodeTableWord 8 0x0B = some (.inc .byte (.reg 0)) ∧
    decodeTableWord 16 0x640A = some (.mov .qword (.reg 0) (.reg 4)) ∧
    decodeTableWord 24 0x0A800D = some (.push .byte (.imm 10)) ∧
    decodeTableWord 8 0x16 = none := by
  decide

/-- The host's placement: the next step after reset runs the placed instruction. -/
theorem test_fetch_word :
    (ends (State.reset.withFetchWord 24 0x0A800A) fun t => t.reg 0 = 10 ∧ t.ip = 3) ∧
    ends (State.reset.withFetchWord 8 0x15) fun t => t.status = .halted := by
  decide

/-! ### Steps, from 95_test_vectors 2.1 to 2.10 -/

/-- VA3: `add reg0 5` -/
theorem test_add_zero_extends :
    ends (zeroExtending (loaded 0 [0b00000000, 0b10000000, 0x05] [(0, 0x1FF)]))
      fun t => t.reg 0 = 0x4 ∧ t.ip = 3 := by
  decide

/-- VA7: `add @reg2 1` -/
theorem test_add_memory_byte :
    ends (put (loaded 0 [0b01000000, 0b10001000, 0x01] [(2, 0x1068)]) 4200 [0xFF, 0x07])
      fun t => t.mem.bytes 4200 2 = [0x00, 0x07] ∧ t.ip = 3 := by
  decide

/-- VA12: `sub reg3 0x10` -/
theorem test_sub_keeps_upper_byte :
    ends (loaded 0 [0b01100001, 0b10000000, 0x10] [(3, 0x1205)])
      fun t => t.reg 3 = 0x12F5 ∧ t.ip = 3 := by
  decide

/-- VA14: `sub @reg1 0xFFFFFFFFFFFFFFFF` -/
theorem test_sub_longest_form :
    ends (loaded 0 ([0b00100001, 0b11101000] ++ List.replicate 8 0xFF) [(1, 0x1068)])
      fun t => t.mem.bytes 4200 8 = [1, 0, 0, 0, 0, 0, 0, 0] ∧ t.ip = 10 := by
  decide

/-- VA17: `mul reg0 reg1` -/
theorem test_mul_low_half :
    ends (loaded 0 [0b00000010, 0b01100001] [(0, 0xDEADBEEF), (1, 0x10001)])
      fun t => t.reg 0 = 0xDEAE9D9CBEEF ∧ t.ip = 2 := by
  decide

/-- VA18: `mul reg0 16` -/
theorem test_mul_byte :
    ends (loaded 0 [0b00000010, 0b10000000, 0x10] [(0, 0x1234)])
      fun t => t.reg 0 = 0x1240 ∧ t.ip = 3 := by
  decide

/-- VD5: `div reg0 3` -/
theorem test_div_low_byte :
    ends (loaded 0 [0b00000011, 0b10000000, 0x03] [(0, 0x1FF)])
      fun t => t.reg 0 = 0x155 ∧ t.ip = 3 := by
  decide

/-- VD9: `div reg0 reg1` -/
theorem test_div_low_byte_zero :
    faults (loaded 0 [0b00000011, 0b00000001] [(0, 0x7), (1, 0x100)])
      .divideByZero 3 .none := by
  decide

/-- VD11: `mod reg0 reg1` -/
theorem test_mod_wide :
    ends (loaded 0 [0b00000100, 0b01100001] [(0, 0xFFFFFFFFFFFFFFFF), (1, 0xA)])
      fun t => t.reg 0 = 0x5 ∧ t.ip = 2 := by
  decide

/-- VD14: `mod reg6 reg7` -/
theorem test_mod_by_zero :
    faults (loaded 0 [0b11000100, 0b01100111] [(6, 0x5), (7, 0x0)])
      .divideByZero 4 .none := by
  decide

/-- VB2: `and reg0 0x0F` -/
theorem test_and_merges :
    ends (loaded 0 [0b00000101, 0b10000000, 0x0F] [(0, 0x12FF)])
      fun t => t.reg 0 = 0x120F ∧ t.ip = 3 := by
  decide

/-- VB3: `and reg0 0x0F` -/
theorem test_and_zero_extends :
    ends (zeroExtending (loaded 0 [0b00000101, 0b10000000, 0x0F] [(0, 0x12FF)]))
      fun t => t.reg 0 = 0xF ∧ t.ip = 3 := by
  decide

/-- VB5: `or reg0 0x100` -/
theorem test_or_short :
    ends (loaded 0 [0b00000110, 0b10100000, 0x00, 0x01] [(0, 0xAB0001)])
      fun t => t.reg 0 = 0xAB0101 ∧ t.ip = 4 := by
  decide

/-- VB4: `or reg0 reg1` -/
theorem test_or_qword :
    ends (loaded 0 [0b00000110, 0b01100001] [(0, 0xFF00FF00FF00FF00), (1, 0xFF00FF00FF00FF0)])
      fun t => t.reg 0 = 0xFFF0FFF0FFF0FFF0 ∧ t.ip = 2 := by
  decide

/-- VB9: `xor @reg4 reg4` -/
theorem test_xor_address_is_value :
    ends (loaded 0 [0b10000111, 0b01101100] [(4, 0x1068)])
      fun t => t.mem.bytes 4200 8 = [0x68, 0x10, 0, 0, 0, 0, 0, 0] ∧ t.ip = 2 := by
  decide

/-- VB7: `xor reg5 reg5` -/
theorem test_xor_self :
    ends (loaded 0 [0b10100111, 0b01100101] [(5, 0x123456789ABCDEF0)])
      fun t => t.reg 5 = 0x0 ∧ t.ip = 2 := by
  decide

/-- VS6: `shl reg0 reg1` -/
theorem test_shl_count_not_reduced :
    ends (loaded 0 [0b00001000, 0b01100001] [(0, 0xFFFFFFFFFFFFFFFF), (1, 0x100000000)])
      fun t => t.reg 0 = 0x0 ∧ t.ip = 2 := by
  decide

/-- VS2: `shl reg0 8` -/
theorem test_shl_count_of_width :
    ends (loaded 0 [0b00001000, 0b10000000, 0x08] [(0, 0xABCD)])
      fun t => t.reg 0 = 0xAB00 ∧ t.ip = 3 := by
  decide

/-- VS10: `shr reg0 reg1` -/
theorem test_shr_logical :
    ends (loaded 0 [0b00001001, 0b01100001] [(0, 0x8000000000000000), (1, 0x3F)])
      fun t => t.reg 0 = 0x1 ∧ t.ip = 2 := by
  decide

/-- VS8: `shr reg0 4` -/
theorem test_shr_byte :
    ends (loaded 0 [0b00001001, 0b10000000, 0x04] [(0, 0x12F3)])
      fun t => t.reg 0 = 0x120F ∧ t.ip = 3 := by
  decide

/-- VM11: `mov @reg1 @reg2` -/
theorem test_mov_memory_to_memory :
    ends (put (loaded 0 [0b00101010, 0b01111010] [(1, 0x10CC), (2, 0x1068)]) 4200 counting)
      fun t => t.mem.bytes 4300 8 = counting ∧ t.ip = 2 := by
  decide

/-- VM14: `mov reg0 @reg1` -/
theorem test_mov_no_wrap :
    faults (loaded 0 [0b00001010, 0b01110001] [(1, 0xFFFFFFFFFFFFFFFF)])
      .memoryAccessViolation 10 (.address 0xFFFFFFFFFFFFFFFF) := by
  decide

/-- VI5: `inc @reg1` -/
theorem test_inc_memory_wraps :
    ends (put (loaded 0 [0b00001011, 0b01110001] [(1, 0x1068)]) 4200 (List.replicate 8 0xFF))
      fun t => t.mem.bytes 4200 8 = List.replicate 8 0 ∧ t.ip = 2 := by
  decide

/-- VI8: `inc reg2` -/
theorem test_inc_byte_no_carry :
    ends (loaded 0 [0b00001011, 0b00000010] [(2, 0x12FF)])
      fun t => t.reg 2 = 0x1200 ∧ t.ip = 2 := by
  decide

/-- VI6: `dec @4200` -/
theorem test_dec_literal_width :
    ends (put (loaded 0 [0b00001100, 0b10110000, 0x68, 0x10] []) 4200 [0x00, 0x00, 0x05])
      fun t => t.mem.bytes 4200 3 = [0xFF, 0xFF, 0x05] ∧ t.ip = 4 := by
  decide

/-- VI10: `dec 5` -/
theorem test_dec_immediate :
    faults (loaded 0 [0b00001100, 0b10000000, 0x05] [])
      .invalidInstruction 12 (.opcode 12) := by
  decide

/-- VK3: `push 0x1234` -/
theorem test_push_fills_stack :
    ends ((loaded 0 [0b00001101, 0b10100000, 0x34, 0x12] []).setEsp 4094)
      fun t => t.mem.bytes 8190 2 = [0x34, 0x12] ∧ t.ip = 4 ∧ t.esp = 4096 := by
  decide

/-- VK4: `push 0x1234` -/
theorem test_push_overflow :
    faults ((loaded 0 [0b00001101, 0b10100000, 0x34, 0x12] []).setEsp 4095)
      .stackOverflow 13 (.stack 4095 .short) := by
  decide

/-- VK16: `pop reg4` -/
theorem test_pop_short :
    ends
      ((put (loaded 0 [0b00001110, 0b00100100] [(4, 0xFFFFFFFFFFFFFFFF)]) 4096 counting).setEsp 8)
      fun t => t.reg 4 = 0xFFFFFFFFFFFF0807 ∧ t.ip = 2 ∧ t.esp = 6 := by
  decide

/-- VK11: `pop reg4` -/
theorem test_pop_underflow :
    faults
      ((put (loaded 0 [0b00001110, 0b01100100] [(4, 0xFFFFFFFFFFFFFFFF)]) 4096 counting).setEsp 7)
      .stackUnderflow 14 (.stack 7 .qword) := by
  decide

/-- VC4: `cmp reg0 reg1` -/
theorem test_cmp_unsigned :
    ends (loaded 0 [0b00001111, 0b01100001] [(0, 0xFFFFFFFFFFFFFFFF), (1, 0x1)])
      fun t => t.ip = 2 ∧ t.flags = .greater := by
  decide

/-- VC11: `cmp reg0 @reg1` -/
theorem test_cmp_violation_keeps_flags :
    faults ((loaded 0 [0b00001111, 0b01110001] [(0, 0x1), (1, 0x2328)]).setFlags .smaller)
      .memoryAccessViolation 15 (.address 9000) := by
  decide

/-- VJ17: `jz 0xFB` -/
theorem test_jz_backward :
    ends ((loaded 20 [0b00010000, 0b10000000, 0xFB] []).setFlags .zero)
      fun t => t.ip = 15 := by
  decide

/-- VJ28: `jz @reg1` -/
theorem test_jz_checks_when_not_taken :
    faults ((loaded 20 [0b00010000, 0b01110001] [(1, 0x2328)]).setFlags .none)
      .memoryAccessViolation 16 (.address 9000) := by
  decide

/-- VJ5: `jnz 5` -/
theorem test_jnz_at_reset_flags :
    ends ((loaded 20 [0b00010001, 0b10000000, 0x05] []).setFlags .none)
      fun t => t.ip = 25 := by
  decide

/-- VJ6: `jnz 5` -/
theorem test_jnz_not_taken :
    ends ((loaded 20 [0b00010001, 0b10000000, 0x05] []).setFlags .zero)
      fun t => t.ip = 23 := by
  decide

/-- VJ27: `jg 0xFFFFFFFF` -/
theorem test_jg_dword :
    ends ((loaded 20 [0b00010010, 0b11000000, 0xFF, 0xFF, 0xFF, 0xFF] []).setFlags .greater)
      fun t => t.ip = 19 := by
  decide

/-- VJ12: `jg 5` -/
theorem test_jg_not_taken :
    ends ((loaded 20 [0b00010010, 0b10000000, 0x05] []).setFlags .smaller)
      fun t => t.ip = 23 := by
  decide

/-- VJ16: `js 5` -/
theorem test_js_taken :
    ends ((loaded 20 [0b00010011, 0b10000000, 0x05] []).setFlags .smaller)
      fun t => t.ip = 25 := by
  decide

/-- VJ15: `js 5` -/
theorem test_js_not_taken :
    ends ((loaded 20 [0b00010011, 0b10000000, 0x05] []).setFlags .greater)
      fun t => t.ip = 23 := by
  decide

/-- VH4: `printi @4200` -/
theorem test_printi_short_memory :
    ends (put (loaded 0 [0b00010100, 0b10110000, 0x68, 0x10] []) 4200 counting)
      fun t => t.ip = 4 ∧ t.out = [513] := by
  decide

/-- VH5: `printi @reg1` -/
theorem test_printi_violation :
    faults (loaded 0 [0b00010100, 0b01110001] [(1, 0x2000)])
      .memoryAccessViolation 20 (.address 8192) := by
  decide

/-- VH7: `halt` -/
theorem test_halt_ignored_bits :
    ends (loaded 0 [0b11110101] [])
      fun t => t.ip = 0 ∧ t.status = .halted := by
  decide

/-! ### The fetch -/

/-- VF4: `mov reg0 0x1122334455667788` starts in the last byte of the code segment. -/
def overRead : State :=
  put { loaded 0 [0] [] with ip := 4095 } 4095
    [0b00001010, 0b11100000, 0x88, 0x77, 0x66, 0x55, 0x44, 0x33, 0x22, 0x11]

/-- VF4: the fetch reads on into the stack segment. -/
theorem test_fetch_reads_over :
    ends overRead fun t => t.reg 0 = 0x1122334455667788 ∧ t.ip = 4105 := by
  decide

/-- VF5, VF1: one byte further, and with no bytecode at all, the fetch faults. -/
theorem test_fetch_out_of_bounds :
    after { overRead with ip := 4096 } =
      some (faultOf { overRead with ip := 4096 } .ipOutOfBounds none (.ip 4096)) ∧
    after State.reset = some (faultOf State.reset .ipOutOfBounds none (.ip 0)) := by
  decide

/-- VH8, VH9: an unassigned opcode. -/
theorem test_unassigned_opcode :
    faults (loaded 0 [0b00010110] []) .invalidInstruction 22 (.opcode 22) ∧
    faults (loaded 0 [0b11111111] []) .invalidInstruction 31 (.opcode 31) := by
  decide

/-- 10_state R18 [D17], 60_exceptions R160 [D26]: the numbers the host sees. -/
theorem test_numbers :
    [Flags.none, .zero, .greater, .smaller].map Flags.toWord = [0, 1, 2, 3] ∧
    [FaultKind.ipOutOfBounds, .memoryAccessViolation, .stackOverflow, .stackUnderflow,
      .invalidInstruction, .divideByZero].map FaultKind.code = [1, 2, 3, 4, 5, 6] := by
  decide

/-! ### Witnesses: for each obligation with hypotheses, values that meet them, at the boundaries -/

/-- What `after` finds is the step's answer. -/
theorem step_of_after {s t : State} (h : after s = some t) : step s = .next t := by
  unfold after at h
  split at h <;> simp_all

/-- `x[1]` is the last address of a qword, `x[2]` the first that is none; `x[0] = 0`. -/
def edge : State := loaded 0 [0] [(1, 8184), (2, 8185)]

/-- A push of a qword that fills the stack. -/
def filling : State := (loaded 0 [0b00001101, 0b01100000] []).setEsp 4088

theorem witness_EncodingAndDecodingAgree :
    Config.default.WF ∧ (Instr.sub .qword (.memReg 1) (.imm 0xFFFFFFFFFFFFFFFF)).wf = true ∧
    decode Config.default [0b00100001, 0b10001000, 0xFF, 7] =
      .ok (.sub .byte (.memReg 1) (.imm 0xFF), [7]) ∧
    ignoredBitsZero (.sub .byte (.memReg 1) (.imm 0xFF)) [0b00100001, 0b10001000, 0xFF, 7] :=
  ⟨by decide, by decide, by decide, by unfold ignoredBitsZero; decide⟩

/-- The fields of `halt`, of `pop @reg3` and `inc @255`, and of `add reg5 @reg6` and
`cmp @reg3 @255`. -/
theorem witness_DecodeReadsTheFields :
    Config.default.WF ∧
    ((0b11110101 : Byte).toNat % 32 = (Config.default.opcode .halt).toNat ∧
      Op.halt.shape = .arity0 .halt) ∧
    ((0b01110011 : Byte).toNat / 128 = 0 ∧
      Width.qword.bytes = 2 ^ ((0b01110011 : Byte).toNat / 32 % 4) ∧
      (0b01110011 : Byte).toNat % 8 = (3 : RegIdx).toNat ∧ Op.pop.shape = .arity1 .pop true) ∧
    ((0b10010000 : Byte).toNat / 128 = 1 ∧ (0b10010000 : Byte).toNat / 16 % 2 = 1 ∧
      [(255 : Byte)].length = Width.byte.bytes ∧
      (255 : Word).toNat =
        ∑ k ∈ Finset.range 1, 2 ^ (8 * k) * ([(255 : Byte)].getD k 0).toNat ∧
      Op.inc.shape = .arity1 .inc true) ∧
    ((0b10100000 : Byte).toNat % 32 = (Config.default.opcode .add).toNat ∧
      (0b10100000 : Byte).toNat / 32 = (5 : RegIdx).toNat ∧ Op.add.shape = .arity2 .add) ∧
    (0b01101111 : Byte).toNat % 32 = (Config.default.opcode .cmp).toNat ∧
      (0b10011000 : Byte).toNat / 128 = 1 ∧ Op.cmp.shape = .arity2 .cmp :=
  ⟨by decide, ⟨by decide, rfl⟩, ⟨by decide, by decide, by decide, rfl⟩,
    ⟨by decide, by decide, by decide, by decide, rfl⟩, ⟨by decide, by decide, rfl⟩,
    by decide, by decide, rfl⟩

/-- `halt` with all its ignored bits, `printi 15` with its own, `cmp @reg3 @16` with its own. -/
theorem witness_IgnoredBitsHaveNoEffect :
    Config.default.WF ∧
    ((0b00010101 : Byte).toNat % 32 = 21 ∧ (0b11110101 : Byte).toNat % 32 = 21) ∧
    ((0b00010100 : Byte).toNat % 32 = 20 ∧ (0b11110100 : Byte).toNat % 32 = 20 ∧
      (0b10000000 : Byte).toNat / 16 = (0b10001111 : Byte).toNat / 16 ∧
      ¬(0b10000000 : Byte).toNat / 128 = 0) ∧
    (0b01101111 : Byte).toNat % 32 = 15 ∧
      (0b10011000 : Byte).toNat / 8 = (0b10011111 : Byte).toNat / 8 := by
  decide

theorem witness_AssembledLiteralHasTheNarrowestWidth :
    (255 : Word).toNat < 2 ^ Width.byte.bits ∧ ¬(256 : Word).toNat < 2 ^ Width.byte.bits ∧
    (256 : Word).toNat < 2 ^ Width.short.bits := by
  decide

theorem witness_ConstructionLoadsTheBytecode :
    0 < ({ Config.default with pageSize := 1 }).pageSize := by
  decide

/-- The smallest page and guard, and a code segment filled to its last byte. -/
theorem witness_ConstructionMeetsTheInvariant :
    ({ Config.default with pageSize := 16, bytecodeLen := (List.replicate 16 (0 : Byte)).length } :
      Config).WF := by
  decide

theorem witness_StepKeepsTheInvariant : filling.Inv ∧ ∃ t, step filling = .next t :=
  ⟨by decide, _, step_of_after rfl⟩

/-- At the last offset of the code segment. -/
theorem witness_StepRunsTheDecodedInstruction :
    overRead.status = .running ∧ overRead.ip.toNat + 1 = overRead.cfg.codeSize ∧
    decode overRead.cfg overRead.fetchBytes =
      .ok (.mov .qword (.reg 0) (.imm 0x1122334455667788), []) := by
  decide

theorem witness_StepRunsTheInstructionSpelledAtIp :
    overRead.cfg.WF ∧ overRead.status = .running ∧ overRead.ip.toNat < overRead.cfg.codeSize ∧
    (Instr.mov .qword (.reg 0) (.imm 0x1122334455667788)).wf = true ∧
    ∀ (k : Nat) (b : Byte),
      (encode overRead.cfg (.mov .qword (.reg 0) (.imm 0x1122334455667788)))[k]? = some b →
      overRead.byte (overRead.ip.toNat + k) = b := by
  refine ⟨by decide, by decide, by decide, by decide, fun k b h => ?_⟩
  have key : ∀ k < 10,
      (encode overRead.cfg (.mov .qword (.reg 0) (.imm 0x1122334455667788)))[k]? =
        some (overRead.byte (overRead.ip.toNat + k)) := by decide
  rcases Nat.lt_or_ge k 10 with hk | hk
  · rw [key k hk] at h
    exact Option.some.inj h
  · rw [List.getElem?_eq_none hk] at h
    cases h

/-- `ip = CODE_SIZE`, VF5. -/
theorem witness_StepFaultsIpOutOfBounds :
    ({ overRead with ip := 4096 }).status = .running ∧
    ({ overRead with ip := 4096 }).cfg.codeSize = ({ overRead with ip := 4096 }).ip.toNat := by
  decide

/-- The first unassigned code, in the last byte of the code segment. -/
theorem witness_UnassignedOpcodeFaults :
    let s := put { loaded 0 [0] [] with ip := 4095 } 4095 [0b00010110]
    s.status = .running ∧ s.ip.toNat < s.cfg.codeSize ∧
    (s.byte s.ip.toNat).toNat % 32 = (22 : BitVec 5).toNat ∧ ∀ op, s.cfg.opcode op ≠ 22 :=
  ⟨by decide, by decide, by decide, fun op => by cases op <;> decide⟩

/-- VI9, VI10, VK15. -/
theorem witness_DirectImmediateDestinationFaults :
    (loaded 0 [0b00001011, 0b10000000, 5] []).cfg.WF ∧
    ∀ p ∈ [(Op.inc, (0b00001011 : Byte)), (.dec, 0b00001100), (.pop, 0b00001110)],
      let s := loaded 0 [p.2, 0b10000000, 5] []
      s.status = .running ∧ s.ip.toNat < s.cfg.codeSize ∧
      (s.byte s.ip.toNat).toNat % 32 = (s.cfg.opcode p.1).toNat ∧
      (s.byte (s.ip.toNat + 1)).toNat / 128 = 1 ∧ (s.byte (s.ip.toNat + 1)).toNat / 16 % 2 = 0 := by
  decide

theorem witness_ExactlyTheRunningMachineSteps :
    filling.Inv ∧ filling.status = .running ∧ filling.halt.Inv ∧ filling.halt.status = .halted := by
  decide

theorem witness_FaultingStepChangesNothingElse :
    ∃ t, step (filling.setEsp 4089) = .next t ∧ t.status = .faulted .stackOverflow :=
  ⟨_, step_of_after rfl, by decide⟩

/-- A bounds fault and another, in instructions that can raise them. -/
theorem witness_InstructionsRaiseOnlyTheirFaults :
    edge.status = .running ∧
    (∃ t, exec (.add .qword (.reg 0) (.memReg 2)) edge = .next t ∧
      t.status = .faulted .memoryAccessViolation) ∧
    ∃ t, exec (.mod .qword (.reg 1) (.reg 0)) edge = .next t ∧ t.status = .faulted .divideByZero :=
  ⟨by decide, ⟨_, rfl, by decide⟩, _, rfl, by decide⟩

theorem witness_OnlyHaltHalts :
    ∃ t, step (loaded 20 [0b11110101] []) = .next t ∧ t.status = .halted :=
  ⟨_, step_of_after rfl, by decide⟩

theorem witness_StepKeepsTheParameters : ∃ t, step filling = .next t := ⟨_, step_of_after rfl⟩

/-- The push reaches the last byte below the guard area, whose first byte is 8192. -/
theorem witness_GuardAreaIsNeverWritten :
    (∃ t, step filling = .next t) ∧ filling.cfg.memLimit = 8192 :=
  ⟨⟨_, step_of_after rfl⟩, by decide⟩

theorem witness_FetchStaysBelowTheGuard :
    overRead.cfg.WF ∧ overRead.ip.toNat + 1 = overRead.cfg.codeSize := by
  decide

theorem witness_RegistersChangeOnlyAsOperands :
    (∃ t, exec (.mov .byte (.reg 0) (.imm 7)) edge = .next t) ∧
    registerWritten (.mov .byte (.reg 0) (.imm 7)) ≠ some 1 ∧
    registerWritten (.mov .byte (.memReg 1) (.imm 7)) = none :=
  ⟨⟨_, rfl⟩, by decide, by decide⟩

/-- The bytes just below and just above the span stored to. -/
theorem witness_MemoryChangesOnlyInTheStoredSpan :
    (∃ t, exec (.mov .qword (.memReg 1) (.reg 1)) edge = .next t) ∧
    bytesWritten edge (.mov .qword (.memReg 1) (.reg 1)) = some (8184, 8) ∧
    8183 < 8184 ∧ 8184 + 8 ≤ 8192 :=
  ⟨⟨_, rfl⟩, by decide, by decide, by decide⟩

theorem witness_OnlyPushAndPopMoveTheStackPointer :
    (∃ t, exec (.inc .qword (.memReg 1)) edge = .next t) ∧
    (Instr.inc .qword (.memReg 1)).op ≠ .push ∧ (Instr.inc .qword (.memReg 1)).op ≠ .pop :=
  ⟨⟨_, rfl⟩, by decide, by decide⟩

/-- An instruction other than `cmp`, and a next state whose flags are none. -/
theorem witness_OnlyCmpWritesFlags :
    ∃ t, exec (.sub .qword (.reg 1) (.reg 1)) edge = .next t ∧
      (Instr.sub .qword (.reg 1) (.reg 1)).op ≠ .cmp ∧ t.flags = .none :=
  ⟨_, rfl, by decide, by decide⟩

/-- An instruction other than `printi`, and `printi`. -/
theorem witness_OnlyPrintiWritesTheStream :
    (∃ t, exec (.dec .qword (.reg 1)) edge = .next t ∧ (Instr.dec .qword (.reg 1)).op ≠ .printi) ∧
    ∃ t, exec (.printi .qword (.reg 1)) edge = .next t ∧ t.out = [8184] :=
  ⟨⟨_, rfl, by decide⟩, _, rfl, by decide⟩

/-- The destination refused; the destination admitted at its last address and the source refused. -/
theorem witness_BoundsAreCheckedBeforeAnyEffect :
    instrSrc (.add .qword (.memReg 2) (.memReg 2)) = some (.qword, .memReg 2) ∧
    instrDst (.add .qword (.memReg 2) (.memReg 2)) = some (.memReg 2) ∧
    dstAddress edge (.memReg 2) = some 8185 ∧
    edge.cfg.memLimit < (8185 : Word).toNat + Width.qword.bytes ∧
    inBounds edge .qword (dstAddress edge (.memReg 1)) = true ∧
    srcAddress edge (.memReg 2) = some 8185 := by
  decide

/-- Both branches, where the spans meet and where they part. -/
theorem witness_ReadSeesTheBytesOfAnOverlappingWrite :
    1 < Width.short.bytes ∧ (100 ≤ 99 + 1 ∧ 99 + 1 < 100 + Width.byte.bytes) ∧
    0 < Width.short.bytes ∧ ¬(100 ≤ 99 + 0 ∧ 99 + 0 < 100 + Width.byte.bytes) := by
  decide

/-- The push that fills the stack exactly. -/
theorem witness_PopReturnsWhatPushPushed :
    filling.cfg.WF ∧ (Instr.push .qword (.memReg 1)).wf = true ∧
    inBounds filling .qword (srcAddress filling (.memReg 1)) = true ∧
    filling.esp.toNat + Width.qword.bytes = filling.cfg.stackSize := by
  decide

/-- The hypotheses of a statement about an arity-2 instruction: the largest immediate, both operands
at the last address that is in bounds, either at the first that is not. -/
abbrev ArityTwoEdges (mk : Width → Dst → Src → Instr) : Prop :=
  (mk .qword (.reg 0) (.imm 0xFFFFFFFFFFFFFFFF)).wf = true ∧
  (mk .qword (.memReg 1) (.memReg 1)).wf = true ∧
  inBounds edge .qword (dstAddress edge (.memReg 1)) = true ∧
  inBounds edge .qword (srcAddress edge (.memReg 1)) = true ∧
  dstAddress edge (.memReg 2) = some 8185 ∧ srcAddress edge (.memReg 2) = some 8185 ∧
  edge.cfg.memLimit < (8185 : Word).toNat + Width.qword.bytes

/-- The same for an arity-1 instruction, with the place its operand names. -/
abbrev ArityOneEdges (mk : Width → Src → Instr) : Prop :=
  (mk .qword (.memImm 0xFFFFFFFFFFFFFFFF)).wf = true ∧
  (mk .qword (.memReg 1)).wf = true ∧ srcLoc edge (.memReg 1) = .place (.mem 8184) ∧
  inBounds edge .qword (srcAddress edge (.memReg 1)) = true ∧
  srcAddress edge (.memReg 2) = some 8185 ∧
  edge.cfg.memLimit < (8185 : Word).toNat + Width.qword.bytes

theorem witness_AddStoresSum : ArityTwoEdges Instr.add := by decide

theorem witness_SubStoresDifference : ArityTwoEdges Instr.sub := by decide

theorem witness_MulStoresLowProduct : ArityTwoEdges Instr.mul := by decide

theorem witness_DivStoresQuotient :
    ArityTwoEdges Instr.div ∧ (Instr.div .qword (.memReg 1) (.reg 0)).wf = true ∧
    inBounds edge .qword (srcAddress edge (.reg 0)) = true ∧
    srcValue edge .qword (.reg 0) = 0 ∧ srcValue edge .qword (.reg 1) ≠ 0 := by
  decide

theorem witness_ModStoresRemainder :
    ArityTwoEdges Instr.mod ∧ (Instr.mod .qword (.memReg 1) (.reg 0)).wf = true ∧
    inBounds edge .qword (srcAddress edge (.reg 0)) = true ∧
    srcValue edge .qword (.reg 0) = 0 ∧ srcValue edge .qword (.reg 1) ≠ 0 := by
  decide

theorem witness_AndStoresConjunction : ArityTwoEdges Instr.and := by decide

theorem witness_OrStoresInclusiveOr : ArityTwoEdges Instr.or := by decide

theorem witness_XorStoresExclusiveOr : ArityTwoEdges Instr.xor := by decide

theorem witness_ShlStoresShiftedLeft : ArityTwoEdges Instr.shl := by decide

theorem witness_ShrStoresShiftedRight : ArityTwoEdges Instr.shr := by decide

theorem witness_MovCopiesTheSource : ArityTwoEdges Instr.mov := by decide

theorem witness_IncAddsOneInPlace : ArityOneEdges Instr.inc := by decide

theorem witness_DecSubtractsOneInPlace : ArityOneEdges Instr.dec := by decide

/-- The last stack pointer at which a qword fits, and the first at which it does not. -/
theorem witness_PushWritesAboveTheTop :
    ArityOneEdges Instr.push ∧ filling.esp.toNat + Width.qword.bytes = filling.cfg.stackSize ∧
    filling.cfg.stackSize < (filling.setEsp 4089).esp.toNat + Width.qword.bytes := by
  decide

/-- The last stack pointer at which a qword is missing, the first at which it is there, and the
full stack. -/
theorem witness_PopReadsTheTop :
    ArityOneEdges Instr.pop ∧ (edge.setEsp 7).esp.toNat + 1 = Width.qword.bytes ∧
    Width.qword.bytes = (edge.setEsp 8).esp.toNat ∧
    (edge.setEsp 4096).esp.toNat = edge.cfg.stackSize := by
  decide

theorem witness_CmpSetsTheFlags : ArityTwoEdges Instr.cmp := by decide

theorem witness_JzJumpsWhenZero :
    ArityOneEdges Instr.jz ∧ (edge.setFlags .zero).flags = .zero ∧ ¬edge.flags = .zero := by
  decide

theorem witness_JnzJumpsUnlessZero :
    ArityOneEdges Instr.jnz ∧ (edge.setFlags .none).flags ≠ .zero ∧
    ¬((edge.setFlags .zero).flags ≠ .zero) := by
  decide

theorem witness_JgJumpsWhenGreater :
    ArityOneEdges Instr.jg ∧ (edge.setFlags .greater).flags = .greater ∧
    ¬edge.flags = .greater := by
  decide

theorem witness_JsJumpsWhenSmaller :
    ArityOneEdges Instr.js ∧ (edge.setFlags .smaller).flags = .smaller ∧
    ¬edge.flags = .smaller := by
  decide

theorem witness_PrintiAppendsTheValue : ArityOneEdges Instr.printi := by decide

theorem witness_HaltStopsInPlace :
    (0b11110101 : Byte).toNat % 32 = 21 ∧ edge.halt.status = .halted ∧ edge.status = .running ∧
    ∃ t, exec .halt edge = .next t ∧ t.status = .halted :=
  ⟨by decide, by decide, by decide, _, rfl, by decide⟩

end Sys2Proof.Tests
end

section
/-! PROOFS of the encoding family (spec/30_encoding.md): the encoder and the decoder undo each other
(R68), lengths (R56), and the codes that no operation has (R63). -/

namespace Sys2Proof.Machine

/-! ### Decoding what was encoded -/

/-- The operation whose code was packed into byte 0 is found there again. -/
theorem operation_packByte0 {c : Config} (hc : (Op.all.map c.opcode).Nodup) (d : BitVec 3)
    (op : Op) : c.operation (opcField (packByte0 d (c.opcode op))) = some op := by
  rw [opcField_pack, Config.operation_opcode hc]

section
variable {c : Config} {op : Op} {w : Width} {src : Src}

theorem decode_encode1 {mk : Width → Src → Instr} {writes : Bool}
    (hc : (Op.all.map c.opcode).Nodup) (hs : op.shape = .arity1 mk writes)
    (hfits : src.fits w = true) (hwrites : (!writes || src.writable) = true) (rest : List Byte) :
    decode c (encode1 (c.opcode op) w src ++ rest) = .ok (mk w src, rest) := by
  have himm : (writes && !src.writable) = false := by
    rw [← Bool.not_not (writes && !src.writable), Bool.not_and, Bool.not_not, hwrites,
      Bool.not_true]
  rw [encode1, List.cons_append, List.cons_append, decode_arity1 (operation_packByte0 hc 0 op) hs,
    isDirectImm_pack, himm, decodeSrc_pack hfits, widthOf_pack]
  rfl

theorem decode_encode2 {mk : Width → Dst → Src → Instr}
    (hc : (Op.all.map c.opcode).Nodup) (hs : op.shape = .arity2 mk)
    (hfits : src.fits w = true) (d : Dst) (rest : List Byte) :
    decode c (encode2 (c.opcode op) w d src ++ rest) = .ok (mk w d src, rest) := by
  rw [encode2, List.cons_append, List.cons_append,
    decode_arity2 (operation_packByte0 hc d.field op) hs, decodeSrc_pack hfits, widthOf_pack,
    decodeDst_pack]

end

/-- R68 from the instruction's side. -/
theorem decode_encode {c : Config} (hc : (Op.all.map c.opcode).Nodup) {i : Instr}
    (hi : i.wf = true) (rest : List Byte) : decode c (encode c i ++ rest) = .ok (i, rest) := by
  rcases i.shape_cases with hs | ⟨mk, writes, w, src, hs, rfl⟩ | ⟨mk, w, d, src, hs, rfl⟩
  · obtain ⟨-, rfl⟩ := Op.of_arity0 hs
    exact decode_arity0 (operation_packByte0 hc 0 .halt) hs
  · obtain ⟨-, -, -, hwf, henc⟩ := Op.of_arity1 hs w src
    obtain ⟨hfits, hwrites⟩ := Bool.and_eq_true_iff.1 (hwf.symm.trans hi)
    rw [henc, decode_encode1 hc hs hfits hwrites]
  · obtain ⟨-, -, -, hwf, henc⟩ := Op.of_arity2 hs w d src
    rw [henc, decode_encode2 hc hs (hwf.symm.trans hi)]

/-! ### Encoding what was decoded -/

/-- Decoding gives well-formed instructions only. -/
theorem wf_of_decode {c : Config} {i : Instr} {bytes rest : List Byte}
    (h : decode c bytes = .ok (i, rest)) : i.wf = true := by
  obtain ⟨b0, tail, -, -, ⟨hs, -⟩ | ⟨b1, tail', -, ⟨mk, writes, src, hs, himm, hsrc, rfl⟩ |
    ⟨mk, src, hs, hsrc, rfl⟩⟩⟩ := decode_ok h
  · obtain ⟨-, rfl⟩ := Op.of_arity0 hs
    rfl
  · obtain ⟨-, -, -, hwf, -⟩ := Op.of_arity1 hs (widthOf b1) src
    obtain ⟨hfits, -, -, -, -, hwritable⟩ := decodeSrc_some hsrc
    rw [hwf, hfits, hwritable, Bool.true_and, ← Bool.not_and, himm, Bool.not_false]
  · obtain ⟨-, -, -, hwf, -⟩ := Op.of_arity2 hs (widthOf b1) (decodeDst b0 b1) src
    obtain ⟨hfits, -⟩ := decodeSrc_some hsrc
    rw [hwf, hfits]

section
variable {b0 b1 : Byte} {bs rest : List Byte} {src : Src}

/-- The second byte of a decoded operand is its fields put together again, if the register field
beside an immediate was zero. -/
theorem packByte1_of_decodeSrc (h : decodeSrc b1 bs = some (src, rest))
    (hs : typeField b1 = 1 → srcField b1 = 0) :
    packByte1 src.typeBit (widthOf b1).selector src.indirectBit (dstIndirectField b1) src.field =
      b1 := by
  obtain ⟨-, -, htype, hindirect, hfield, -⟩ := decodeSrc_some h
  have hfield' : src.field = srcField b1 := by
    rcases BitVec1.eq_zero_or_one (typeField b1) with ht | ht
    · rw [hfield, if_pos ht]
    · rw [hfield, if_neg (by rw [ht]; decide), hs ht]
  rw [htype, hindirect, hfield', widthOf, Width.selector_ofSelector, packByte1_fields]

theorem decodeDst_field (b0 b1 : Byte) : (decodeDst b0 b1).field = dstField b0 := by
  unfold decodeDst
  split <;> rfl

theorem decodeDst_indirectBit (b0 b1 : Byte) :
    (decodeDst b0 b1).indirectBit = dstIndirectField b1 := by
  unfold decodeDst
  rcases BitVec1.eq_zero_or_one (dstIndirectField b1) with h | h <;> rw [h] <;> rfl

theorem encode1_of_decodeSrc (h : decodeSrc b1 bs = some (src, rest)) (hd : dstField b0 = 0)
    (hdm : dstIndirectField b1 = 0) (hs : typeField b1 = 1 → srcField b1 = 0) :
    encode1 (opcField b0) (widthOf b1) src ++ rest = b0 :: b1 :: bs := by
  obtain ⟨-, hbs, -⟩ := decodeSrc_some h
  rw [encode1, ← hd, packByte0_fields, ← hdm, packByte1_of_decodeSrc h hs, hbs, List.cons_append,
    List.cons_append]

theorem encode2_of_decodeSrc (h : decodeSrc b1 bs = some (src, rest))
    (hs : typeField b1 = 1 → srcField b1 = 0) :
    encode2 (opcField b0) (widthOf b1) (decodeDst b0 b1) src ++ rest = b0 :: b1 :: bs := by
  obtain ⟨-, hbs, -⟩ := decodeSrc_some h
  rw [encode2, decodeDst_field, packByte0_fields, decodeDst_indirectBit,
    packByte1_of_decodeSrc h hs, hbs, List.cons_append, List.cons_append]

end

/-! ### The ignored bits as fields (30_encoding R64) -/

section
variable {i : Instr} {b0 b1 : Byte} {bs : List Byte}

theorem dstField_eq_zero_of_ignored (h : ignoredBitsZero i (b0 :: bs)) (hd : instrDst i = none) :
    dstField b0 = 0 := by
  obtain ⟨hbits, -, -⟩ := h
  exact BitVec.eq_of_toNat_eq ((dstField_toNat b0).trans (hbits hd))

theorem dstIndirectField_eq_zero_of_ignored (h : ignoredBitsZero i (b0 :: b1 :: bs))
    (hd : instrDst i = none) (hsrc : instrSrc i ≠ none) : dstIndirectField b1 = 0 := by
  obtain ⟨-, hbits, -⟩ := h
  exact BitVec.eq_of_toNat_eq ((dstIndirectField_toNat b1).trans (hbits hd hsrc))

theorem srcField_eq_zero_of_ignored (h : ignoredBitsZero i (b0 :: b1 :: bs))
    (hsrc : instrSrc i ≠ none) (ht : typeField b1 = 1) : srcField b1 = 0 := by
  obtain ⟨-, -, hbits⟩ := h
  have htype : b1.toNat / 128 = 1 := by rw [← typeField_toNat, ht]; rfl
  exact BitVec.eq_of_toNat_eq ((srcField_toNat b1).trans (hbits hsrc htype))

end

/-- R68 from the bytes' side. -/
theorem encode_of_decode {c : Config} {i : Instr} {bytes rest : List Byte}
    (h : decode c bytes = .ok (i, rest)) (hz : ignoredBitsZero i bytes) :
    encode c i ++ rest = bytes := by
  obtain ⟨b0, tail, rfl, hop, hshape⟩ := decode_ok h
  have hopc := Config.opcode_of_operation hop
  obtain ⟨hs, rfl⟩ | ⟨b1, bs, rfl, ⟨mk, writes, src, hs, -, hsrc, rfl⟩ |
    ⟨mk, src, hs, hsrc, rfl⟩⟩ := hshape
  · obtain ⟨-, rfl⟩ := Op.of_arity0 hs
    have hopc : c.opcode .halt = opcField b0 := hopc
    rw [encode, hopc, ← dstField_eq_zero_of_ignored hz rfl, packByte0_fields, List.singleton_append]
  · obtain ⟨-, hdst, hsrc', -, henc⟩ := Op.of_arity1 hs (widthOf b1) src
    have hsome : instrSrc (mk (widthOf b1) src) ≠ none := by simp [hsrc']
    rw [henc, hopc]
    exact encode1_of_decodeSrc hsrc (dstField_eq_zero_of_ignored hz hdst)
      (dstIndirectField_eq_zero_of_ignored hz hdst hsome) (srcField_eq_zero_of_ignored hz hsome)
  · obtain ⟨-, -, hsrc', -, henc⟩ := Op.of_arity2 hs (widthOf b1) (decodeDst b0 b1) src
    have hsome : instrSrc (mk (widthOf b1) (decodeDst b0 b1) src) ≠ none := by simp [hsrc']
    rw [henc, hopc]
    exact encode2_of_decodeSrc hsrc (srcField_eq_zero_of_ignored hz hsome)

/-- Settles O1: each half goes along the three shapes of an operation, the first by packing the
fields of both bytes and reading them again, the second by the fields a decode has read. -/
theorem encodingAndDecodingAgree : Obligations.EncodingAndDecodingAgree :=
  ⟨fun _ _ rest ⟨_, _, hinj, _⟩ hi => decode_encode hinj hi rest,
    fun _ _ _ _ h => ⟨wf_of_decode h, encode_of_decode h⟩⟩

/-! ### Lengths -/

theorem immBytes_length (w : Width) (src : Src) : 2 + (src.immBytes w).length = src.length w := by
  cases src <;> simp [Src.immBytes, Src.length]

theorem encode1_length (opc : BitVec 5) (w : Width) (src : Src) :
    (encode1 opc w src).length = src.length w := by
  rw [← immBytes_length, encode1, List.length_cons, List.length_cons]
  omega

theorem encode2_length (opc : BitVec 5) (w : Width) (d : Dst) (src : Src) :
    (encode2 opc w d src).length = src.length w := by
  rw [← immBytes_length, encode2, List.length_cons, List.length_cons]
  omega

/-- The table's length of an instruction with a source operand is that operand's. -/
theorem instrLength_of_instrSrc {i : Instr} {w : Width} {src : Src}
    (h : instrSrc i = some (w, src)) : instrLength i = src.length w := by
  unfold instrLength
  rw [h]
  cases src <;> rfl

/-- Settles O4, shape by shape. -/
theorem encodedLengthIsTheTables : Obligations.EncodedLengthIsTheTables := by
  intro c i
  rcases i.shape_cases with hs | ⟨mk, writes, w, src, hs, rfl⟩ | ⟨mk, w, d, src, hs, rfl⟩
  · obtain ⟨-, rfl⟩ := Op.of_arity0 hs
    rfl
  · obtain ⟨-, -, hsrc, -, henc⟩ := Op.of_arity1 hs w src
    rw [henc, encode1_length, instrLength_of_instrSrc hsrc]
  · obtain ⟨-, -, hsrc, -, henc⟩ := Op.of_arity2 hs w d src
    rw [henc, encode2_length, instrLength_of_instrSrc hsrc]

/-! ### Codes that no operation has -/

/-- A fetch in the code segment reads byte 0 from `ip`. -/
theorem fetchBytes_eq_cons {s : State} (hip : s.ip.toNat < s.cfg.codeSize) :
    ∃ tail, s.fetchBytes = s.byte s.ip.toNat :: tail := by
  have hpos : 0 < min maxLength (s.cfg.memTotal - s.ip.toNat) := by
    unfold maxLength Config.memTotal Config.memLimit
    omega
  have hhead : s.fetchBytes.head? = some (s.byte s.ip.toNat) := by
    rw [List.head?_eq_getElem?, State.fetchBytes_getElem?, if_pos hpos, Nat.add_zero]
  exact List.head?_eq_some_iff.1 hhead

/-- Settles O16: byte 0 is always fetched, and the decoder refuses an unassigned code on that
alone. -/
theorem unassignedOpcodeFaults : Obligations.UnassignedOpcodeFaults := by
  intro s opc hrunning hip hbyte hfree
  obtain ⟨tail, hfetch⟩ := fetchBytes_eq_cons hip
  have hopc : opcField (s.byte s.ip.toNat) = opc :=
    BitVec.eq_of_toNat_eq ((opcField_toNat _).trans hbyte)
  have hdecode : decode s.cfg s.fetchBytes = .error (.unknownOpcode opc) := by
    rw [hfetch, decode_unknown (hopc ▸ Config.operation_eq_none.2 hfree), hopc]
  rw [step_running hrunning hip, hdecode]
  rfl

end Sys2Proof.Machine
end

section
/-! PROOFS of the arithmetic and bitwise family (spec/41_arithmetic_bitwise.md): the words of an
arity-2 operation (30_encoding R57), the faults of its operands (20_memory R37), what a completed
store leaves (40_execute_common R91), and the template of R100 at each operation. -/

namespace Sys2Proof

/-! ### Numbers of the words and widths -/

theorem packByte0_eq_ofNat (d : BitVec 3) (opc : BitVec 5) :
    packByte0 d opc = BitVec.ofNat 8 (32 * d.toNat + opc.toNat) := by
  rw [← packByte0_toNat, BitVec.ofNat_toNat, BitVec.setWidth_eq]

theorem packByte1_eq_ofNat (t : BitVec 1) (ws : BitVec 2) (sm dm : BitVec 1) (s : BitVec 3) :
    packByte1 t ws sm dm s = BitVec.ofNat 8
      (128 * t.toNat + 32 * ws.toNat + 16 * sm.toNat + 8 * dm.toNat + s.toNat) := by
  rw [← packByte1_toNat, BitVec.ofNat_toNat, BitVec.setWidth_eq]

theorem Width.selector_toNat (w : Width) : w.selector.toNat = Machine.selectorNumber w := by
  cases w <;> rfl

theorem Width.pow_bits_dvd (w : Width) : 2 ^ w.bits ∣ 2 ^ 64 := pow_dvd_pow 2 w.bits_le

end Sys2Proof

namespace Sys2Proof.Machine

/-! ### The words of an arity-2 operation -/

theorem immBytes_eq_immediateBytes (w : Width) (src : Src) :
    src.immBytes w = immediateBytes w (sourceBits src).2.2 := by
  cases src with
  | reg | memReg => rfl
  | imm v | memImm v => exact leBytes_eq_map w.bytes v.toNat

/-- Byte 1 as the spec's numbers: the source's type and indirection bits, the width selector, the
destination's indirection bit and the source's register (30_encoding R53). -/
theorem packByte1_operands (w : Width) (src : Src) (dm : BitVec 1) :
    packByte1 src.typeBit w.selector src.indirectBit dm src.field = BitVec.ofNat 8
      ((sourceBits src).1 + 32 * selectorNumber w + 8 * dm.toNat + (sourceBits src).2.1) := by
  rw [packByte1_eq_ofNat, Width.selector_toNat]
  congr 1
  cases src <;> simp [Src.typeBit, Src.indirectBit, Src.field, sourceBits] <;> omega

/-- The encoder writes the bytes of formats `A2R` and `A2I`. -/
theorem encode2_eq_arityTwoBytes (opc : BitVec 5) (w : Width) (d : Dst) (src : Src) :
    encode2 opc w d src = arityTwoBytes opc.toNat w d src := by
  rw [encode2, packByte0_eq_ofNat, packByte1_operands, immBytes_eq_immediateBytes]
  cases d <;> rfl

theorem arityTwoWords_of_shape {op : Op} {mk : Width → Dst → Src → Instr}
    (hshape : op.shape = .arity2 mk) :
    ArityTwoWords (Config.default.opcode op).toNat mk := by
  intro w d src rest hwf
  obtain ⟨-, -, -, -, henc⟩ := Op.of_arity2 hshape w d src
  rw [← encode2_eq_arityTwoBytes, ← henc]
  exact ⟨rfl, decode_encode Config.default_injective hwf rest⟩

/-! ### Operands out of bounds -/

theorem accessViolation_eq (op : Op) (s : State) (a : Word) :
    accessViolation op s a =
      .next (faultOf s .memoryAccessViolation (some (s.cfg.opcode op)) (.address a)) := rfl

/-- An operation that resolves both operands before all else faults on each of them. -/
theorem arityTwoViolations_of_withDstSrc {op : Op} {mk : Width → Dst → Src → Instr}
    (hexec : ∀ w d src s, ∃ k, exec (mk w d src) s = withDstSrc op w d src s k) :
    ArityTwoViolations op mk := by
  intro w d src s a
  obtain ⟨k, hk⟩ := hexec w d src s
  rw [hk, ← accessViolation_eq]
  refine ⟨withDstSrc_of_outOfBounds op k, fun hd ha hout => ?_⟩
  rw [withDstSrc_of_inBounds op k hd, withSrc_of_outOfBounds op _ ha hout]

/-! ### A completed store -/

theorem Place.Holds.past {p : Place} {w : Width} {v : Nat} {s t : State} (h : p.Holds w v s t)
    (src : Src) : p.Holds w v s (t.past w src) := by
  cases p <;> exact h

theorem movedPast_past {s t : State} (w : Width) (src : Src) (hip : t.ip = s.ip) :
    MovedPast (src.length w) s (t.past w src) := by
  rw [MovedPast, State.past_eq, State.advance_ip, hip, BitVec.toNat_add, BitVec.toNat_ofNat,
    Nat.add_mod_mod]

/-- An instruction of `len` bytes has completed: the place holds the value `v`, and nothing else
but `ip` has changed (R100; 40_execute_common R93). -/
def CompletedStore (p : Place) (w : Width) (v len : Nat) (s t : State) : Prop :=
  p.Holds w v s t ∧ MovedPast len s t ∧ t.esp = s.esp ∧ ControlKept s t

theorem Place.store_past_completed (p : Place) (w : Width) (v : Word) (src : Src) (s : State) :
    CompletedStore p w (v.toNat % 2 ^ w.bits) (src.length w) s ((p.store s w v).past w src) :=
  ⟨(p.store_holds s w v).past src, movedPast_past w src (p.store_ip s w v), p.store_esp s w v,
    p.store_flags s w v, p.store_out s w v, p.store_status s w v, p.store_faultRecord s w v,
    p.store_cfg s w v⟩

/-! ### The template of R100 -/

/-- Both operands in bounds, `mk` completes and leaves `g a b` modulo `2^(8·W)` at the
destination. -/
def StoresResult (mk : Width → Dst → Src → Instr) (g : Width → Nat → Nat → Nat) : Prop :=
  ∀ (w : Width) (d : Dst) (src : Src) (s : State), (mk w d src).wf = true →
    inBounds s w (dstAddress s d) = true → inBounds s w (srcAddress s src) = true →
    ∃ t, exec (mk w d src) s = .next t ∧
      CompletedStore (dstPlace s d) w (g w (dstValue s w d) (srcValue s w src) % 2 ^ w.bits)
        (instrLength (mk w d src)) s t

/-- On values of `8·W` bits, `f` is `g` modulo `2^(8·W)`. -/
def Computes (f : Width → Word → Word → Word) (g : Width → Nat → Nat → Nat) : Prop :=
  ∀ (w : Width) (a b : Word), a.toNat < 2 ^ w.bits → b.toNat < 2 ^ w.bits →
    (f w a b).toNat % 2 ^ w.bits = g w a.toNat b.toNat % 2 ^ w.bits

theorem combine_of_inBounds {w : Width} {d : Dst} {src : Src} {s : State} (op : Op)
    (f : Word → Word → Word) (hd : inBounds s w (dstAddress s d) = true)
    (hs : inBounds s w (srcAddress s src) = true) :
    combine op f w d src s = .next (((dstPlace s d).store s w
      (f ((dstPlace s d).load s w) ((srcLoc s src).load s w))).past w src) := by
  rw [combine, withDstSrc_of_inBounds op _ hd, withSrc_of_inBounds op _ hs]

section
variable {op : Op} {mk : Width → Dst → Src → Instr} {f : Width → Word → Word → Word}
  {g : Width → Nat → Nat → Nat}

theorem storesResult_of_combine (hshape : op.shape = .arity2 mk)
    (hexec : ∀ w d src s, exec (mk w d src) s = combine op (f w) w d src s)
    (hfg : Computes f g) : StoresResult mk g := by
  intro w d src s hwf hd hs
  obtain ⟨-, -, hsrc, hfits, -⟩ := Op.of_arity2 hshape w d src
  rw [hfits] at hwf
  have hdst : ((dstPlace s d).load s w).toNat = dstValue s w d := Place.load_toNat _ s w
  have hval : ((srcLoc s src).load s w).toNat = srcValue s w src := Src.load_toNat hwf s
  have hresult := hfg w ((dstPlace s d).load s w) ((srcLoc s src).load s w)
    (hdst ▸ Place.value_lt _ s w) (hval ▸ srcValue_lt hwf s)
  rw [hdst, hval] at hresult
  rw [hexec, combine_of_inBounds op (f w) hd hs, instrLength_of_instrSrc hsrc, ← hresult]
  exact ⟨_, rfl, Place.store_past_completed _ w _ src s⟩

/-- What every operation of the template meets: its words, its violations and its result. -/
theorem combine_spec (hshape : op.shape = .arity2 mk)
    (hexec : ∀ w d src s, exec (mk w d src) s = combine op (f w) w d src s)
    (hfg : Computes f g) :
    ArityTwoWords (Config.default.opcode op).toNat mk ∧ ArityTwoViolations op mk ∧
      StoresResult mk g :=
  ⟨arityTwoWords_of_shape hshape,
    arityTwoViolations_of_withDstSrc fun w d src s => ⟨_, hexec w d src s⟩,
    storesResult_of_combine hshape hexec hfg⟩

end

/-! ### The functions `f(a, b)` as numbers -/

theorem sumOf_computes : Computes (fun _ => sumOf) fun _ a b => a + b := by
  intro w a b _ _
  simp only [sumOf, BitVec.toNat_add, Nat.mod_mod_of_dvd _ w.pow_bits_dvd]

/-- Borrowing `2^64` or `2^(8·W)` is the same modulo `2^(8·W)`. -/
theorem differenceOf_computes :
    Computes (fun _ => differenceOf) fun w a b => a + 2 ^ w.bits - b := by
  intro w a b _ hb
  obtain ⟨k, hk⟩ := w.pow_bits_dvd
  have hb64 : b.toNat < 2 ^ 64 := b.isLt
  simp only [differenceOf, BitVec.toNat_sub, Nat.mod_mod_of_dvd _ w.pow_bits_dvd]
  refine Nat.ModEq.add_right_cancel' b.toNat ?_
  calc 2 ^ 64 - b.toNat + a.toNat + b.toNat
      = a.toNat + 2 ^ w.bits * k := by omega
    _ ≡ a.toNat + 2 ^ w.bits [MOD 2 ^ w.bits] := by simp [Nat.ModEq]
    _ = a.toNat + 2 ^ w.bits - b.toNat + b.toNat := by omega

theorem productOf_computes : Computes (fun _ => productOf) fun _ a b => a * b := by
  intro w a b _ _
  simp only [productOf, BitVec.toNat_mul, Nat.mod_mod_of_dvd _ w.pow_bits_dvd]

theorem andOf_computes : Computes (fun _ => andOf) fun _ a b => a &&& b := by
  intro w a b _ _
  simp only [andOf, BitVec.toNat_and]

theorem orOf_computes : Computes (fun _ => orOf) fun _ a b => a ||| b := by
  intro w a b _ _
  simp only [orOf, BitVec.toNat_or]

theorem xorOf_computes : Computes (fun _ => xorOf) fun _ a b => a ^^^ b := by
  intro w a b _ _
  simp only [xorOf, BitVec.toNat_xor]

/-! ### The obligations -/

/-- Settles O33: the template of R100 at the sum, which a cut to `8·W` bits keeps. -/
theorem addStoresSum : Obligations.AddStoresSum :=
  combine_spec (op := .add) rfl (fun _ _ _ _ => rfl) sumOf_computes

/-- Settles O34: the template of R100 at the difference, borrowing at width `W`. -/
theorem subStoresDifference : Obligations.SubStoresDifference :=
  combine_spec (op := .sub) rfl (fun _ _ _ _ => rfl) differenceOf_computes

/-- Settles O35: the template of R100 at the product, which a cut to `8·W` bits keeps. -/
theorem mulStoresLowProduct : Obligations.MulStoresLowProduct :=
  combine_spec (op := .mul) rfl (fun _ _ _ _ => rfl) productOf_computes

/-- Settles O38: the template of R100 at the bitwise AND. -/
theorem andStoresConjunction : Obligations.AndStoresConjunction :=
  combine_spec (op := .and) rfl (fun _ _ _ _ => rfl) andOf_computes

/-- Settles O39: the template of R100 at the bitwise inclusive OR. -/
theorem orStoresInclusiveOr : Obligations.OrStoresInclusiveOr :=
  combine_spec (op := .or) rfl (fun _ _ _ _ => rfl) orOf_computes

/-- Settles O40: the template of R100 at the bitwise exclusive OR. -/
theorem xorStoresExclusiveOr : Obligations.XorStoresExclusiveOr :=
  combine_spec (op := .xor) rfl (fun _ _ _ _ => rfl) xorOf_computes

end Sys2Proof.Machine
end

section
/-! PROOFS of the data movement family (spec/42_mov.md): what `mov` answers once both operands are in
bounds, and that the destination then holds the source's own value (R120, R121). -/

namespace Sys2Proof.Machine

theorem exec_mov (w : Width) (d : Dst) (src : Src) (s : State) :
    exec (.mov w d src) s = withDstSrc .mov w d src s fun dl sl =>
      .next ((dl.store s w (sl.load s w)).past w src) := rfl

section
variable {w : Width} {d : Dst} {src : Src} {s : State}

/-- R120: the source is loaded and stored as it is. -/
theorem exec_mov_of_inBounds (hd : inBounds s w (dstAddress s d) = true)
    (hs : inBounds s w (srcAddress s src) = true) :
    exec (.mov w d src) s =
      .next (((dstPlace s d).store s w ((srcLoc s src).load s w)).past w src) := by
  rw [exec_mov, withDstSrc_of_inBounds .mov _ hd, withSrc_of_inBounds .mov _ hs]

/-- An encoded source loads `8·W` bits, so the store cuts nothing off. -/
theorem Src.load_toNat_mod (h : src.fits w = true) (s : State) :
    ((srcLoc s src).load s w).toNat % 2 ^ w.bits = srcValue s w src := by
  rw [Src.load_toNat h, Nat.mod_eq_of_lt (srcValue_lt h s)]

theorem mov_completes (hwf : (Instr.mov w d src).wf = true)
    (hd : inBounds s w (dstAddress s d) = true) (hs : inBounds s w (srcAddress s src) = true) :
    ∃ t, exec (.mov w d src) s = .next t ∧
      CompletedStore (dstPlace s d) w (srcValue s w src) (instrLength (.mov w d src)) s t := by
  obtain ⟨-, -, hsrc, hfits, -⟩ := Op.of_arity2 (op := .mov) rfl w d src
  rw [← Src.load_toNat_mod (hfits ▸ hwf) s, instrLength_of_instrSrc hsrc]
  exact ⟨_, exec_mov_of_inBounds hd hs, Place.store_past_completed _ w _ src s⟩

end

/-- Settles O43: the words and violations are those of every arity-2 operation that resolves both
operands first; in bounds, the place holds the value that was loaded. -/
theorem movCopiesTheSource : Obligations.MovCopiesTheSource :=
  ⟨arityTwoWords_of_shape (op := .mov) rfl,
    arityTwoViolations_of_withDstSrc fun w d src s => ⟨_, exec_mov w d src s⟩,
    fun _ _ _ _ hwf hd hs => mov_completes hwf hd hs⟩

end Sys2Proof.Machine
end

section
/-! PROOFS of the comparison family (spec/45_cmp.md): what `cmp` answers once both operands are in
bounds, and the flags as the relation of the operands' values (R140). -/

namespace Sys2Proof.Machine

/-- The advance past an instruction, as a change of `ip` alone in unbounded integers
(10_state R15). -/
theorem State.past_eq_ipUpdate (s : State) (w : Width) (src : Src) :
    s.past w src = { s with ip := BitVec.ofNat 64 (s.ip.toNat + src.length w) } := by
  rw [State.past_eq, State.advance, BitVec.ofNat_add, BitVec.ofNat_toNat, BitVec.setWidth_eq]

/-- The flags are decided on the words' unsigned values (45_cmp R140, R141). -/
theorem compareFlags_eq_toNat (a b : Word) :
    compareFlags a b =
      if a.toNat = b.toNat then .zero else if b.toNat < a.toNat then .greater else .smaller := by
  simp only [compareFlags, BitVec.toNat_inj, BitVec.lt_def]

theorem exec_cmp (w : Width) (d : Dst) (src : Src) (s : State) :
    exec (.cmp w d src) s = withDstSrc .cmp w d src s fun dl sl =>
      .next ((s.setFlags (compareFlags (dl.load s w) (sl.load s w))).past w src) := rfl

section
variable {w : Width} {d : Dst} {src : Src} {s : State}

theorem exec_cmp_of_inBounds (hd : inBounds s w (dstAddress s d) = true)
    (hs : inBounds s w (srcAddress s src) = true) :
    exec (.cmp w d src) s = .next ((s.setFlags
      (compareFlags ((dstPlace s d).load s w) ((srcLoc s src).load s w))).past w src) := by
  rw [exec_cmp, withDstSrc_of_inBounds .cmp _ hd, withSrc_of_inBounds .cmp _ hs]

/-- An encoded `cmp` compares the values of `8·W` bits that its operands hold. -/
theorem compareFlags_operands (h : src.fits w = true) :
    compareFlags ((dstPlace s d).load s w) ((srcLoc s src).load s w) =
      if dstValue s w d = srcValue s w src then .zero
      else if srcValue s w src < dstValue s w d then .greater else .smaller := by
  rw [compareFlags_eq_toNat, Place.load_toNat, Src.load_toNat h, dstValue]

/-- R140: the next state is the old one but for `flags` and `ip`. -/
theorem cmp_completes (hwf : (Instr.cmp w d src).wf = true)
    (hd : inBounds s w (dstAddress s d) = true) (hs : inBounds s w (srcAddress s src) = true) :
    exec (.cmp w d src) s =
      .next { s with
        flags :=
          if dstValue s w d = srcValue s w src then .zero
          else if srcValue s w src < dstValue s w d then .greater else .smaller
        ip := BitVec.ofNat 64 (s.ip.toNat + instrLength (.cmp w d src)) } := by
  obtain ⟨-, -, hsrc, hfits, -⟩ := Op.of_arity2 (op := .cmp) rfl w d src
  rw [exec_cmp_of_inBounds hd hs, compareFlags_operands (hfits ▸ hwf), State.past_eq_ipUpdate,
    instrLength_of_instrSrc hsrc]
  rfl

end

/-- Settles O48: the words and violations are those of every arity-2 operation that resolves both
operands first; in bounds, the loaded words compare as the operands' values do. -/
theorem cmpSetsTheFlags : Obligations.CmpSetsTheFlags :=
  ⟨arityTwoWords_of_shape (op := .cmp) rfl,
    arityTwoViolations_of_withDstSrc fun w d src s => ⟨_, exec_cmp w d src s⟩,
    fun _ _ _ _ hwf hd hs => cmp_completes hwf hd hs⟩

end Sys2Proof.Machine
end

section
/-! PROOFS of the output and halt family (spec/47_printi_halt.md): the words of an arity-1 operation
(30_encoding R57), the fault of its operand (20_memory R36), the value `printi` appends (R155), and
the one instruction that halts (R156). -/

namespace Sys2Proof.Machine

/-! ### The words and violations of an arity-1 operation -/

/-- The encoder writes the bytes of formats `A1R` and `A1I`. -/
theorem encode1_eq_arityOneBytes (opc : BitVec 5) (w : Width) (src : Src) :
    encode1 opc w src = arityOneBytes opc.toNat w src := by
  rw [encode1, packByte0_eq_ofNat, packByte1_operands, immBytes_eq_immediateBytes]
  simp [arityOneBytes]

theorem arityOneWords_of_shape {op : Op} {mk : Width → Src → Instr} {writes : Bool}
    (hshape : op.shape = .arity1 mk writes) :
    ArityOneWords (Config.default.opcode op).toNat mk := by
  intro w src rest hwf
  obtain ⟨-, -, -, -, henc⟩ := Op.of_arity1 hshape w src
  rw [← encode1_eq_arityOneBytes, ← henc]
  exact ⟨rfl, decode_encode Config.default_injective hwf rest⟩

/-- An operation that resolves its operand before all else faults on it. -/
theorem arityOneViolations_of_withSrc {op : Op} {mk : Width → Src → Instr}
    (hexec : ∀ w src s, ∃ k, exec (mk w src) s = withSrc op w src s k) :
    ArityOneViolations op mk := by
  intro w src s a ha hout
  obtain ⟨k, hk⟩ := hexec w src s
  rw [hk, withSrc_of_outOfBounds op k ha hout, accessViolation_eq]

/-! ### printi -/

theorem exec_printi (w : Width) (src : Src) (s : State) :
    exec (.printi w src) s = withSrc .printi w src s fun sl =>
      .next ((s.emit (sl.load s w)).past w src) := rfl

/-- R155: the next state is the old one but for `out` and `ip`. -/
theorem exec_printi_of_inBounds {w : Width} {src : Src} {s : State}
    (hs : inBounds s w (srcAddress s src) = true) :
    exec (.printi w src) s = .next { s with
      out := s.out ++ [(srcLoc s src).load s w]
      ip := BitVec.ofNat 64 (s.ip.toNat + instrLength (.printi w src)) } := by
  rw [exec_printi, withSrc_of_inBounds .printi _ hs, State.past_eq_ipUpdate,
    instrLength_of_instrSrc rfl]
  rfl

/-- Settles O53: the words and violations are those of every arity-1 operation that resolves its
operand first; in bounds, the word appended is the one loaded from the source. -/
theorem printiAppendsTheValue : Obligations.PrintiAppendsTheValue :=
  ⟨arityOneWords_of_shape (op := .printi) rfl,
    arityOneViolations_of_withSrc fun w src s => ⟨_, exec_printi w src s⟩,
    fun _ _ s hwf hs => ⟨_, Src.load_toNat hwf s, exec_printi_of_inBounds hs⟩⟩

/-! ### halt -/

/-- A byte 0 that carries the code of `halt` is the whole instruction. -/
theorem decode_halt {c : Config} (hc : (Op.all.map c.opcode).Nodup) {b0 : Byte}
    (hb : b0.toNat % 32 = (c.opcode .halt).toNat) (rest : List Byte) :
    decode c (b0 :: rest) = .ok (.halt, rest) := by
  have hopc : opcField b0 = c.opcode .halt := BitVec.eq_of_toNat_eq ((opcField_toNat b0).trans hb)
  exact decode_arity0 (op := .halt) (hopc ▸ Config.operation_opcode hc .halt) rfl

theorem exec_halt (s : State) : exec .halt s = .next { s with status := .halted } := rfl

theorem step_halted_ne_next {s : State} (hs : s.status = .halted) (t : State) :
    step s ≠ .next t := by
  intro h
  obtain ⟨hrunning, -⟩ := step_cases h
  simp [hs] at hrunning

/-- Every effect but that of `halt` keeps the status or is a fault (10_state R21). -/
theorem Effect.halted_or_eq_halt {i : Instr} {s t : State} (h : Effect i s t)
    (ht : t.status = .halted) : s.status = .halted ∨ i = .halt := by
  cases h with
  | faulted kind info => simp at ht
  | stored | pushed | popped | compared | jumped | printed => exact .inl (by simpa using ht)
  | halted hi => exact .inr hi

/-- Settles O54: the decoder answers on byte 0 alone, a step starts Running only, and of the effects
of an instruction only that of `halt` leaves a Running machine Halted. -/
theorem haltStopsInPlace : Obligations.HaltStopsInPlace := by
  refine ⟨fun b0 rest hb => decode_halt Config.default_injective hb rest, rfl, exec_halt,
    fun s t hs => step_halted_ne_next hs t, fun i s t hrunning hexec ht => ?_⟩
  refine ((exec_effect hexec).halted_or_eq_halt ht).resolve_left fun hs => ?_
  simp [hrunning] at hs

end Sys2Proof.Machine
end

section
/-! PROOFS of the exceptions family (spec/60_exceptions.md): every answer other than a next state is
shut out by the invariant, so exactly the Running machine steps (R182). The full fetch window keeps
the decoder from running out of bytes, and `esp` in the stack segment keeps `pop` inside memory. -/

namespace Sys2Proof

/-! ### The decoder on a full window -/

theorem decodeSrc_isSome {b1 : Byte} {bs : List Byte} (h : 8 ≤ bs.length) :
    (decodeSrc b1 bs).isSome = true := by
  have hw := (widthOf b1).bytes_le
  unfold decodeSrc takeImm
  split
  · rfl
  · rw [if_neg (by omega)]
    rfl

/-- Bytes as many as the longest instruction never end before the instruction does
(20_memory R39). -/
theorem decode_ne_truncated {c : Config} {bytes : List Byte} (h : maxLength ≤ bytes.length) :
    decode c bytes ≠ .error .truncated := by
  match bytes, h with
  | b0 :: b1 :: bs, h =>
    have hbs : 8 ≤ bs.length := by simpa [maxLength] using h
    obtain ⟨⟨src, rest⟩, hsrc⟩ := Option.isSome_iff_exists.1 (decodeSrc_isSome (b1 := b1) hbs)
    cases ho : c.operation (opcField b0) with
    | none => simp [decode_unknown ho]
    | some op =>
      cases hs : op.shape with
      | arity0 i => simp [decode_arity0 ho hs]
      | arity1 mk writes =>
        rw [decode_arity1 ho hs, hsrc]
        split <;> simp
      | arity2 mk => simp [decode_arity2 ho hs, hsrc]

end Sys2Proof

namespace Sys2Proof.Machine

/-! ### Resolving operands answers a next state if the continuation does -/

section
variable {op : Op} {w : Width} {d : Dst} {src : Src} {s : State}

theorem withSrc_exists_next {k : Loc → Result} (hk : ∀ l, ∃ t, k l = .next t) :
    ∃ t, withSrc op w src s k = .next t := by
  unfold withSrc
  split
  · exact ⟨_, rfl⟩
  · exact hk _

theorem withDstSrc_exists_next {k : Place → Loc → Result} (hk : ∀ p l, ∃ t, k p l = .next t) :
    ∃ t, withDstSrc op w d src s k = .next t := by
  unfold withDstSrc
  split
  · exact ⟨_, rfl⟩
  · exact withSrc_exists_next (hk _)

theorem withWritableSrc_exists_next {k : Place → Result} (hk : ∀ p, ∃ t, k p = .next t) :
    ∃ t, withWritableSrc op w src s k = .next t :=
  withSrc_exists_next fun
    | .place p => hk p
    | .imm _ => ⟨_, rfl⟩

/-! ### Every instruction answers a next state -/

theorem ite_exists_next {c : Prop} [Decidable c] {a b : State} :
    ∃ t, (if c then .next a else .next b : Result) = .next t := by
  split
  · exact ⟨a, rfl⟩
  · exact ⟨b, rfl⟩

theorem combine_exists_next {f : Word → Word → Word} :
    ∃ t, combine op f w d src s = .next t :=
  withDstSrc_exists_next fun _ _ => ⟨_, rfl⟩

theorem combineNonzero_exists_next {f : Word → Word → Word} :
    ∃ t, combineNonzero op f w d src s = .next t :=
  withDstSrc_exists_next fun _ _ => ite_exists_next

theorem adjust_exists_next {f : Word → Word} : ∃ t, adjust op f w src s = .next t :=
  withWritableSrc_exists_next fun _ => ⟨_, rfl⟩

theorem jumpIf_exists_next {taken : Flags → Bool} : ∃ t, jumpIf op taken w src s = .next t :=
  withSrc_exists_next fun _ => ite_exists_next

theorem execPush_exists_next : ∃ t, execPush w src s = .next t :=
  withSrc_exists_next fun _ => ite_exists_next

/-- A `pop` whose top of stack lies in memory reads nothing beyond it. -/
theorem execPop_exists_next (h : s.cfg.stackBase + s.esp.toNat ≤ s.cfg.memTotal) :
    ∃ t, execPop w src s = .next t :=
  withWritableSrc_exists_next fun _ => by
    rw [if_neg (not_lt.2 h)]
    exact ite_exists_next

end

/-- No instruction stops the machine while the top of stack lies in memory. -/
theorem exec_exists_next {s : State} (h : s.cfg.stackBase + s.esp.toNat ≤ s.cfg.memTotal)
    (i : Instr) : ∃ t, exec i s = .next t := by
  cases i with
  | add w d src | sub w d src | mul w d src | and w d src | or w d src | xor w d src
  | shl w d src | shr w d src => exact combine_exists_next
  | div w d src | mod w d src => exact combineNonzero_exists_next
  | mov w d src =>
    rw [exec_mov]
    exact withDstSrc_exists_next fun _ _ => ⟨_, rfl⟩
  | cmp w d src =>
    rw [exec_cmp]
    exact withDstSrc_exists_next fun _ _ => ⟨_, rfl⟩
  | inc w src | dec w src =>
    simp only [exec, execInc, execDec]
    exact adjust_exists_next
  | push w src => exact execPush_exists_next
  | pop w src => exact execPop_exists_next h
  | jz w src | jnz w src | jg w src | js w src => exact jumpIf_exists_next
  | printi w src =>
    rw [exec_printi]
    exact withSrc_exists_next fun _ => ⟨_, rfl⟩
  | halt => exact ⟨_, rfl⟩

/-! ### The step under the invariant -/

/-- A fetch in the code segment reads as many bytes as the longest instruction has
(20_memory R39). -/
theorem fetchBytes_length {s : State} (hinv : s.Inv) (hip : s.ip.toNat < s.cfg.codeSize) :
    s.fetchBytes.length = maxLength := by
  obtain ⟨hcfg, -⟩ := hinv
  obtain ⟨-, -, hcode, -, hguard⟩ := Config.layout_of_WF hcfg
  rw [State.fetchBytes, Memory.bytes_length, Nat.min_eq_left]
  unfold maxLength
  omega

theorem State.Inv.stackTop_le {s : State} (h : s.Inv) :
    s.cfg.stackBase + s.esp.toNat ≤ s.cfg.memTotal := by
  obtain ⟨hcfg, -, -, hesp, -⟩ := h
  obtain ⟨-, -, -, hstack, hguard⟩ := Config.layout_of_WF hcfg
  omega

/-- 40_execute_common R81: at and above `CODE_SIZE` a Running machine faults before it fetches. -/
theorem step_of_codeSize_le {s : State} (hr : s.status = .running)
    (hip : s.cfg.codeSize ≤ s.ip.toNat) :
    step s = .next (s.raise .ipOutOfBounds none (.ip s.ip)) := by
  unfold step State.fetch
  simp only [hr, hip, if_true]

theorem step_exists_next {s : State} (hinv : s.Inv) (hr : s.status = .running) :
    ∃ t, step s = .next t := by
  rcases le_or_gt s.cfg.codeSize s.ip.toNat with hip | hip
  · exact ⟨_, step_of_codeSize_le hr hip⟩
  · have hfull := decode_ne_truncated (c := s.cfg) (fetchBytes_length hinv hip).ge
    rw [step_running hr hip]
    match hd : decode s.cfg s.fetchBytes with
    | .ok (i, _) => exact exec_exists_next hinv.stackTop_le i
    | .error (.unknownOpcode _) | .error (.immediateDestination _) => exact ⟨_, rfl⟩
    | .error .truncated => exact absurd hd hfull

/-- Settles O18: a step starts Running only, and under the invariant none of the three reasons for
having no next state is left to a Running machine. -/
theorem exactlyTheRunningMachineSteps : Obligations.ExactlyTheRunningMachineSteps :=
  fun _ hinv => ⟨fun ⟨_, h⟩ => (step_cases h).1, step_exists_next hinv⟩

end Sys2Proof.Machine
end

section
/-! PROOFS about every instruction and every step, by cases on what they can do: the invariant
(10_state R17, R21; 20_memory R35), what a fault leaves (60_exceptions R166), and the frames
(40_execute_common R93). -/

namespace Sys2Proof

theorem Width.toNat_ofNat_bytes (w : Width) : (BitVec.ofNat 64 w.bytes).toNat = w.bytes := by
  cases w <;> rfl

end Sys2Proof

namespace Sys2Proof.Machine

/-! ### The stack pointer's moves -/

theorem esp_push_toNat (esp : Word) (w : Width) :
    (esp + BitVec.ofNat 64 w.bytes).toNat = (esp.toNat + w.bytes) % 2 ^ 64 := by
  rw [BitVec.toNat_add, w.toNat_ofNat_bytes]

theorem esp_pop_toNat {esp : Word} {w : Width} (h : w.bytes ≤ esp.toNat) :
    (esp - BitVec.ofNat 64 w.bytes).toNat = esp.toNat - w.bytes := by
  have hle : BitVec.ofNat 64 w.bytes ≤ esp := by
    rwa [BitVec.le_def, w.toNat_ofNat_bytes]
  rw [BitVec.toNat_sub_of_le hle, w.toNat_ofNat_bytes]

/-! ### What every effect keeps -/

section
variable {i : Instr} {s t : State}

theorem Effect.cfg_eq (h : Effect i s t) : t.cfg = s.cfg := by
  cases h with
  | faulted | stored | pushed | popped | compared | jumped | printed | halted => simp

theorem Effect.mem_wf (h : Effect i s t) (hm : s.mem.wf) : t.mem.wf := by
  cases h with
  | faulted | compared | jumped | printed | halted => exact hm
  | stored w p v | popped w p v => exact p.store_mem_wf s w v hm
  | pushed w src v => exact Memory.wf_writeLE hm _ _ _

/-- Every span written passed the bounds check or lies in the stack segment (20_memory R35). -/
theorem Effect.mem_lt (h : Effect i s t) (hm : ∀ cell ∈ s.mem, cell.1 < s.cfg.memLimit) :
    ∀ cell ∈ t.mem, cell.1 < s.cfg.memLimit := by
  cases h with
  | faulted | compared | jumped | printed | halted => exact hm
  | stored w p v n hp hb | popped w p v n hi hp hb => exact p.store_mem_lt s w v hb hm
  | pushed w src v n hi hb =>
    intro cell hc
    have hlimit : s.cfg.stackBase + s.cfg.stackSize = s.cfg.memLimit := rfl
    rcases Memory.mem_writeLE hc with hc | hc
    · omega
    · exact hm cell hc

theorem Effect.esp_le (h : Effect i s t) (he : s.esp.toNat ≤ s.cfg.stackSize) :
    t.esp.toNat ≤ s.cfg.stackSize := by
  cases h with
  | faulted | compared | jumped | printed | halted => exact he
  | stored w p v => simpa using he
  | pushed w src v n hi hb =>
    calc (s.esp + BitVec.ofNat 64 w.bytes).toNat
        = (s.esp.toNat + w.bytes) % 2 ^ 64 := esp_push_toNat _ w
      _ ≤ s.esp.toNat + w.bytes := Nat.mod_le _ _
      _ ≤ s.cfg.stackSize := hb
  | popped w p v n hi hp hb hle =>
    calc (s.esp - BitVec.ofNat 64 w.bytes).toNat
        = s.esp.toNat - w.bytes := esp_pop_toNat hle
      _ ≤ s.cfg.stackSize := by omega

/-- An effect raises a fault, halts, or leaves the status and the record alone. -/
theorem Effect.control_cases (h : Effect i s t) :
    (∃ kind opc info, t = s.raise kind opc info) ∨ (i = .halt ∧ t = s.halt) ∨
      (t.status = s.status ∧ t.faultRecord = s.faultRecord) := by
  cases h with
  | faulted kind info => exact .inl ⟨_, _, _, State.raiseIn_eq s i.op kind info⟩
  | halted hi => exact .inr (.inl ⟨hi, rfl⟩)
  | stored | pushed | popped | compared | jumped | printed => exact .inr (.inr (by simp))

/-- A byte changes only where the effect stores. -/
theorem Effect.byte_outside (h : Effect i s t) {b : Nat}
    (hb : ∀ a n, bytesWritten s i = some (a, n) → b < a ∨ a + n ≤ b) : t.byte b = s.byte b := by
  cases h with
  | faulted | compared | jumped | printed | halted => rfl
  | stored w p v n hp | popped w p v n hi hp =>
    refine p.store_byte_outside s w v b fun a ha => hb _ _ ?_
    exact writtenPlace_mem (ha ▸ hp)
  | pushed w src v n hi =>
    have := hb (s.cfg.stackBase + s.esp.toNat) w.bytes (by rw [hi]; rfl)
    rw [State.advance_byte, State.setEsp_byte, State.memWrite_byte, if_neg (by omega)]

/-- Every span written ends at `MEM_LIMIT` or below. -/
theorem Effect.byte_above (h : Effect i s t) {b : Nat} (hb : s.cfg.memLimit ≤ b) :
    t.byte b = s.byte b := by
  cases h with
  | faulted | compared | jumped | printed | halted => rfl
  | stored w p v n hp hok | popped w p v n hi hp hok =>
    refine p.store_byte_outside s w v b fun a ha => .inr ?_
    exact (Place.span_le s w (ha ▸ hok)).trans hb
  | pushed w src v n hi hfits =>
    have hlimit : s.cfg.stackBase + s.cfg.stackSize = s.cfg.memLimit := rfl
    rw [State.advance_byte, State.setEsp_byte, State.memWrite_byte, if_neg (by omega)]

theorem Effect.reg_eq (h : Effect i s t) {j : RegIdx} (hj : registerWritten i ≠ some j) :
    t.reg j = s.reg j := by
  cases h with
  | faulted | compared | jumped | printed | halted | pushed => rfl
  | stored w p v n hp | popped w p v n hi hp =>
    have hne : p ≠ .reg j := fun e => hj (writtenPlace_reg (e ▸ hp))
    exact (p.store_reg s w v j).trans (if_neg hne)

theorem Effect.esp_eq (h : Effect i s t) (hpush : i.op ≠ .push) (hpop : i.op ≠ .pop) :
    t.esp = s.esp := by
  cases h with
  | faulted | stored | compared | jumped | printed | halted => simp
  | pushed w src v n hi => exact absurd (hi ▸ rfl) hpush
  | popped w p v n hi => exact absurd hi hpop

theorem Effect.flags_eq_or_ne_none (h : Effect i s t) :
    t.flags = s.flags ∨ (i.op = .cmp ∧ t.flags ≠ .none) := by
  cases h with
  | faulted | stored | pushed | popped | jumped | printed | halted => exact .inl (by simp)
  | compared f n hi hf => exact .inr ⟨hi, hf⟩

theorem Effect.out_eq_or_append (h : Effect i s t) :
    t.out = s.out ∨ (i.op = .printi ∧ ∃ v, t.out = s.out ++ [v]) := by
  cases h with
  | faulted | stored | pushed | popped | compared | jumped | halted => exact .inl (by simp)
  | printed v n hi => exact .inr ⟨hi, v, rfl⟩

/-- What an effect that ends Faulted from a Running state has raised (60_exceptions R161). -/
theorem Effect.possible_of_faulted (h : Effect i s t) {kind : FaultKind}
    (hs : s.status = .running) (ht : t.status = .faulted kind) :
    kind ∈ possibleFaults i.op ∧
      (kind = .memoryAccessViolation →
        (∃ d a, instrDst i = some d ∧ dstAddress s d = some a) ∨
          ∃ w src a, instrSrc i = some (w, src) ∧ srcAddress s src = some a) := by
  cases h with
  | faulted kind' info hk ha =>
    obtain rfl : kind' = kind := Status.faulted.inj ht
    exact ⟨hk, ha⟩
  | stored | pushed | popped | compared | jumped | printed => simp [hs] at ht
  | halted => simp at ht

end

/-! ### What every step keeps -/

section
variable {s t : State}

/-- A step is a fault of fetch or decode, or an effect of the instruction decoded. -/
theorem step_raise_or_effect (h : step s = .next t) :
    (∃ kind opc info, t = s.raise kind opc info) ∨ ∃ i, Effect i s t := by
  obtain ⟨-, hfault | ⟨i, -, -, -, hexec⟩⟩ := step_cases h
  · exact .inl hfault
  · exact .inr ⟨i, exec_effect hexec⟩

/-- A step raises a fault, executes `halt`, or leaves the machine Running with its record. -/
theorem step_control_cases (h : step s = .next t) :
    (∃ kind opc info, t = s.raise kind opc info) ∨ t = s.halt ∨
      (t.status = .running ∧ t.faultRecord = s.faultRecord) := by
  obtain ⟨hrunning, hfault | ⟨i, -, -, -, hexec⟩⟩ := step_cases h
  · exact .inl hfault
  · rcases (exec_effect hexec).control_cases with hfault | ⟨-, hhalt⟩ | ⟨hstatus, hrecord⟩
    · exact .inl hfault
    · exact .inr (.inl hhalt)
    · exact .inr (.inr ⟨hstatus.trans hrunning, hrecord⟩)

theorem step_cfg_eq (h : step s = .next t) : t.cfg = s.cfg := by
  rcases step_raise_or_effect h with ⟨kind, opc, info, rfl⟩ | ⟨i, he⟩
  · rfl
  · exact he.cfg_eq

theorem State.recordMatches_of_running (hs : s.status = .running) :
    s.recordMatches = true ↔ s.faultRecord = none := by
  simp [State.recordMatches, hs]

theorem State.recordMatches_raise (s : State) (kind : FaultKind) (opc : Option (BitVec 5))
    (info : FaultInfo) : (s.raise kind opc info).recordMatches = true := by
  simp [State.recordMatches]

theorem State.recordMatches_halt (s : State) :
    s.halt.recordMatches = true ↔ s.faultRecord = none := by
  simp [State.recordMatches]

/-- A step that starts without a record ends with the one its status asks for
(10_state R21; 60_exceptions R162). -/
theorem step_recordMatches (h : step s = .next t) (hs : s.recordMatches = true) :
    t.recordMatches = true := by
  obtain ⟨hrunning, -⟩ := step_cases h
  have hnone := (State.recordMatches_of_running hrunning).1 hs
  rcases step_control_cases h with ⟨kind, opc, info, rfl⟩ | rfl | ⟨hstatus, hrecord⟩
  · exact s.recordMatches_raise kind opc info
  · exact s.recordMatches_halt.2 hnone
  · exact (State.recordMatches_of_running hstatus).2 (hrecord.trans hnone)

end

/-- Settles O12: the record follows the status in every step, and each effect keeps the parameters,
the canonical form, the guard area and the bound on `esp`. -/
theorem stepKeepsTheInvariant : Obligations.StepKeepsTheInvariant := by
  intro s t ⟨hcfg, hwf, hlt, hesp, hrecord⟩ h
  have hrecord' := step_recordMatches h hrecord
  rcases step_raise_or_effect h with ⟨kind, opc, info, rfl⟩ | ⟨i, he⟩
  · exact ⟨hcfg, hwf, hlt, hesp, hrecord'⟩
  · refine ⟨?_, he.mem_wf hwf, ?_, ?_, hrecord'⟩
    · exact he.cfg_eq ▸ hcfg
    · exact he.cfg_eq ▸ he.mem_lt hlt
    · exact he.cfg_eq ▸ he.esp_le hesp

/-- Settles O22: a fetch fault and every effect keep the parameters. -/
theorem stepKeepsTheParameters : Obligations.StepKeepsTheParameters :=
  fun _ _ h => step_cfg_eq h

/-- Settles O23: every span an effect writes ends at `MEM_LIMIT` or below. -/
theorem guardAreaIsNeverWritten : Obligations.GuardAreaIsNeverWritten := by
  intro s t a h ha
  rcases step_raise_or_effect h with ⟨kind, opc, info, rfl⟩ | ⟨i, he⟩
  · rfl
  · exact he.byte_above ha

/-- Settles O19: of the three ways a step leaves the status, only a raised fault ends Faulted. -/
theorem faultingStepChangesNothingElse : Obligations.FaultingStepChangesNothingElse := by
  intro s t kind h ht
  rcases step_control_cases h with ⟨kind', opc, info, rfl⟩ | rfl | ⟨hstatus, -⟩
  · obtain rfl : kind' = kind := Status.faulted.inj ht
    exact ⟨opc, info, rfl⟩
  · simp at ht
  · simp [hstatus] at ht

/-- Settles O20: of the effects of an instruction only a fault it may raise ends Faulted. -/
theorem instructionsRaiseOnlyTheirFaults : Obligations.InstructionsRaiseOnlyTheirFaults :=
  fun _ _ _ _ hs hexec ht => (exec_effect hexec).possible_of_faulted hs ht

/-- Settles O25: a store to a register names the one its instruction writes. -/
theorem registersChangeOnlyAsOperands : Obligations.RegistersChangeOnlyAsOperands :=
  fun _ _ _ _ hexec hj => (exec_effect hexec).reg_eq hj

/-- Settles O26: a store to memory and a push cover the span their instruction writes. -/
theorem memoryChangesOnlyInTheStoredSpan : Obligations.MemoryChangesOnlyInTheStoredSpan :=
  fun _ _ _ _ hexec hb => (exec_effect hexec).byte_outside hb

/-- Settles O27: of the effects only those of `push` and `pop` move `esp`. -/
theorem onlyPushAndPopMoveTheStackPointer : Obligations.OnlyPushAndPopMoveTheStackPointer :=
  fun _ _ _ hexec hpush hpop => (exec_effect hexec).esp_eq hpush hpop

/-- Settles O28: of the effects only a comparison writes `flags`, and never none. -/
theorem onlyCmpWritesFlags : Obligations.OnlyCmpWritesFlags := by
  intro i s t hexec
  rcases (exec_effect hexec).flags_eq_or_ne_none with heq | ⟨hcmp, hne⟩
  · exact ⟨fun _ => heq, fun ht => heq.symm.trans ht⟩
  · exact ⟨fun h => absurd hcmp h, fun ht => absurd ht hne⟩

/-- Settles O29: of the effects only printing touches the stream, by one value more. -/
theorem onlyPrintiWritesTheStream : Obligations.OnlyPrintiWritesTheStream := by
  intro i s t hexec
  rcases (exec_effect hexec).out_eq_or_append with heq | ⟨hprinti, happend⟩
  · exact ⟨fun _ => heq, .inl heq⟩
  · exact ⟨fun h => absurd hprinti h, .inr happend⟩

end Sys2Proof.Machine
end

section
/-! PROOFS about the decoder's fields (spec/30_encoding.md R51 to R55, R60, R64): what it reads from
bytes 0 and 1 as numbers, and that it looks at nothing else; sample words (R57) and the assembler's
widths (R72). -/

namespace Sys2Proof.Machine

/-! ### The fields as numbers -/

theorem operation_of_opcode {c : Config} (hc : (Op.all.map c.opcode).Nodup) {b0 : Byte} {op : Op}
    (hb : b0.toNat % 32 = (c.opcode op).toNat) : c.operation (opcField b0) = some op := by
  have hopc : opcField b0 = c.opcode op := BitVec.eq_of_toNat_eq ((opcField_toNat b0).trans hb)
  rw [hopc, Config.operation_opcode hc]

section
variable {b0 b1 : Byte}

theorem typeField_eq_zero_iff : typeField b1 = 0 ↔ b1.toNat / 128 = 0 := by
  rw [← typeField_toNat, BitVec.toNat_eq]
  rfl

theorem typeField_eq_one_iff : typeField b1 = 1 ↔ b1.toNat / 128 = 1 := by
  rw [← typeField_toNat, BitVec.toNat_eq]
  rfl

theorem srcIndirectField_eq_zero_iff : srcIndirectField b1 = 0 ↔ ¬b1.toNat / 16 % 2 = 1 := by
  rw [Nat.mod_two_not_eq_one, ← srcIndirectField_toNat, BitVec.toNat_eq]
  rfl

theorem dstIndirectField_eq_zero_iff : dstIndirectField b1 = 0 ↔ ¬b1.toNat / 8 % 2 = 1 := by
  rw [Nat.mod_two_not_eq_one, ← dstIndirectField_toNat, BitVec.toNat_eq]
  rfl

theorem widthOf_eq {w : Width} (h : w.bytes = 2 ^ (b1.toNat / 32 % 4)) : widthOf b1 = w :=
  Width.bytes_injective ((widthOf_bytes b1).trans h.symm)

theorem dstField_eq {d : RegIdx} (h : b0.toNat / 32 = d.toNat) : dstField b0 = d :=
  BitVec.eq_of_toNat_eq ((dstField_toNat b0).trans h)

theorem srcField_eq {r : RegIdx} (h : b1.toNat % 8 = r.toNat) : srcField b1 = r :=
  BitVec.eq_of_toNat_eq ((srcField_toNat b1).trans h)

theorem isDirectImm_iff :
    isDirectImm b1 = true ↔ b1.toNat / 128 = 1 ∧ ¬b1.toNat / 16 % 2 = 1 := by
  rw [isDirectImm, Bool.and_eq_true, decide_eq_true_iff, decide_eq_true_iff, typeField_eq_one_iff,
    srcIndirectField_eq_zero_iff]

/-! ### The operands the fields spell (30_encoding R60) -/

theorem decodeDst_of_fields {d : RegIdx} (hd : b0.toNat / 32 = d.toNat) :
    decodeDst b0 b1 = if b1.toNat / 8 % 2 = 1 then .memReg d else .reg d := by
  simp only [decodeDst, dstIndirectField_eq_zero_iff, dstField_eq hd, ite_not]

theorem decodeSrc_of_register {r : RegIdx} (ht : b1.toNat / 128 = 0) (hr : b1.toNat % 8 = r.toNat)
    (rest : List Byte) :
    decodeSrc b1 rest = some (if b1.toNat / 16 % 2 = 1 then .memReg r else .reg r, rest) := by
  simp only [decodeSrc, if_pos (typeField_eq_zero_iff.2 ht), srcIndirectField_eq_zero_iff,
    srcField_eq hr, ite_not]

/-- The immediate is the little-endian value of the `W` bytes after byte 1 (30_encoding R55). -/
theorem takeImm_append {w : Width} {bytes : List Byte} {v : Word} (hlen : bytes.length = w.bytes)
    (hv : v.toNat = ∑ k ∈ Finset.range w.bytes, 2 ^ (8 * k) * (bytes.getD k 0).toNat)
    (rest : List Byte) : takeImm w (bytes ++ rest) = some (v, rest) := by
  have hvalue : leValue bytes = v.toNat := by rw [leValue_eq_sum, hlen, hv]
  have hfits : v.toNat < 2 ^ w.bits := by
    rw [← hvalue, ← Width.pow_bits, ← hlen]
    exact leValue_lt bytes
  have hbytes : leBytes w.bytes v.toNat = bytes := by rw [← hlen, ← hvalue, leBytes_leValue]
  rw [← takeImm_leBytes w v rest hfits, hbytes]

theorem decodeSrc_of_immediate {bytes rest : List Byte} {v : Word} (ht : b1.toNat / 128 = 1)
    (himm : takeImm (widthOf b1) (bytes ++ rest) = some (v, rest)) :
    decodeSrc b1 (bytes ++ rest) =
      some (if b1.toNat / 16 % 2 = 1 then .memImm v else .imm v, rest) := by
  have htype : ¬typeField b1 = 0 := by
    rw [typeField_eq_zero_iff, ht]
    decide
  simp only [decodeSrc, if_neg htype, himm, Option.map_some, srcIndirectField_eq_zero_iff, ite_not]

end

/-! ### An instruction from its operands -/

section
variable {c : Config} {op : Op} {b0 b1 : Byte} {bs rest : List Byte} {src : Src}

theorem decode_arity1_of_decodeSrc {mk : Width → Src → Instr} {writes : Bool}
    (ho : c.operation (opcField b0) = some op) (hs : op.shape = .arity1 mk writes)
    (hdirect : writes = true → ¬isDirectImm b1 = true)
    (hsrc : decodeSrc b1 bs = some (src, rest)) :
    decode c (b0 :: b1 :: bs) = .ok (mk (widthOf b1) src, rest) := by
  have hallowed : ¬(writes && isDirectImm b1) = true := by
    rw [Bool.and_eq_true]
    exact fun h => hdirect h.1 h.2
  rw [decode_arity1 ho hs, if_neg hallowed, hsrc]

theorem decode_arity2_of_decodeSrc {mk : Width → Dst → Src → Instr}
    (ho : c.operation (opcField b0) = some op) (hs : op.shape = .arity2 mk)
    (hsrc : decodeSrc b1 bs = some (src, rest)) :
    decode c (b0 :: b1 :: bs) = .ok (mk (widthOf b1) (decodeDst b0 b1) src, rest) := by
  rw [decode_arity2 ho hs, hsrc]

end

/-- Settles O2, along the source type and the arity: the fields' numbers give the operands, and those
the instruction of the operation's shape. -/
theorem decodeReadsTheFields : Obligations.DecodeReadsTheFields := by
  intro c op b0 b1 w d r rest ⟨_, _, hinj, _⟩ hop hd hw hr dst
  have ho := operation_of_opcode hinj hop
  have hdst : decodeDst b0 b1 = dst := decodeDst_of_fields hd
  obtain rfl := widthOf_eq hw
  refine ⟨fun i hs => decode_arity0 ho hs, fun ht => ?_, fun ht bytes v hlen hv => ?_⟩
  · have hsrc := decodeSrc_of_register ht hr rest
    refine ⟨fun mk writes hs => ?_, fun mk hs => ?_⟩
    · refine decode_arity1_of_decodeSrc ho hs (fun _ hdirect => ?_) hsrc
      have := (isDirectImm_iff.1 hdirect).1
      omega
    · rw [decode_arity2_of_decodeSrc ho hs hsrc, hdst]
  · have hsrc := decodeSrc_of_immediate ht (takeImm_append hlen hv rest)
    refine ⟨fun mk writes hs hwrites => ?_, fun mk hs => ?_⟩
    · refine decode_arity1_of_decodeSrc ho hs (fun hw hdirect => ?_) hsrc
      exact (isDirectImm_iff.1 hdirect).2 (hwrites hw)
    · rw [decode_arity2_of_decodeSrc ho hs hsrc, hdst]

/-! ### Ignored bits (30_encoding R64) -/

section
variable {b0 b0' b1 b1' : Byte}

theorem widthOf_congr (h : b1.toNat / 16 = b1'.toNat / 16) : widthOf b1 = widthOf b1' := by
  refine widthOf_eq ?_
  rw [widthOf_bytes, show b1.toNat / 32 = b1'.toNat / 32 by omega]

theorem isDirectImm_congr (h : b1.toNat / 16 = b1'.toNat / 16) :
    isDirectImm b1 = isDirectImm b1' := by
  rw [Bool.eq_iff_iff, isDirectImm_iff, isDirectImm_iff, h,
    show b1.toNat / 128 = b1'.toNat / 128 by omega]

/-- The source operand depends on the high half of byte 1 and, without an immediate, on the source
register field. -/
theorem decodeSrc_congr (h : b1.toNat / 16 = b1'.toNat / 16)
    (hr : b1.toNat / 128 = 0 → b1.toNat % 8 = b1'.toNat % 8) (rest : List Byte) :
    decodeSrc b1 rest = decodeSrc b1' rest := by
  have ht : typeField b1 = 0 ↔ typeField b1' = 0 := by
    rw [typeField_eq_zero_iff, typeField_eq_zero_iff]
    omega
  have hindirect : srcIndirectField b1 = 0 ↔ srcIndirectField b1' = 0 := by
    rw [srcIndirectField_eq_zero_iff, srcIndirectField_eq_zero_iff, h]
  by_cases hzero : typeField b1 = 0
  · have hreg := srcField_eq ((hr (typeField_eq_zero_iff.1 hzero)).trans (srcField_toNat b1').symm)
    simp only [decodeSrc, if_pos hzero, if_pos (ht.1 hzero), hindirect, hreg]
  · simp only [decodeSrc, if_neg hzero, if_neg (mt ht.2 hzero), hindirect, widthOf_congr h]

theorem decodeDst_congr (h0 : b0.toNat / 32 = b0'.toNat / 32) (h1 : b1.toNat / 8 = b1'.toNat / 8) :
    decodeDst b0 b1 = decodeDst b0' b1' := by
  rw [decodeDst_of_fields (h0.trans (dstField_toNat b0').symm),
    decodeDst_of_fields (dstField_toNat b0').symm, h1]

end

/-- Settles O3, shape by shape: each part of the instruction depends on bits its format uses. -/
theorem ignoredBitsHaveNoEffect : Obligations.IgnoredBitsHaveNoEffect := by
  intro c op b0 b0' b1 b1' rest ⟨_, _, hinj, _⟩ hop hop'
  have ho := operation_of_opcode hinj hop
  have ho' := operation_of_opcode hinj hop'
  have hopc : opcField b0 = opcField b0' :=
    (Config.opcode_of_operation ho).symm.trans (Config.opcode_of_operation ho')
  refine ⟨fun i hs => ?_, fun mk writes hs h1 hr => ?_, fun mk hs h0 h1 hr => ?_⟩
  · rw [decode_arity0 ho hs, decode_arity0 ho' hs]
  · rw [decode_arity1 ho hs, decode_arity1 ho' hs, hopc, isDirectImm_congr h1,
      decodeSrc_congr h1 hr, widthOf_congr h1]
  · have h16 : b1.toNat / 16 = b1'.toNat / 16 := by omega
    rw [decode_arity2 ho hs, decode_arity2 ho' hs, decodeSrc_congr h16 hr, widthOf_congr h16,
      decodeDst_congr h0 h1]

/-! ### Sample words and the assembler's widths -/

/-- Settles O5: each word is decoded by evaluation. -/
theorem sampleWordsDecode : Obligations.SampleWordsDecode :=
  ⟨rfl, rfl, rfl, rfl, rfl, rfl, rfl, rfl, rfl⟩

/-- The narrowest width is at most any that holds the literal. -/
theorem minimalWidth_bytes_le {v : Word} {w : Width} (h : v.toNat < 2 ^ w.bits) :
    (minimalWidth v).bytes ≤ w.bytes := by
  unfold minimalWidth
  cases w with
  | byte =>
    have h8 : v.toNat < 2 ^ 8 := h
    rw [if_pos h8]
  | short =>
    have h16 : v.toNat < 2 ^ 16 := h
    rw [if_pos h16]
    split_ifs <;> decide
  | dword =>
    have h32 : v.toNat < 2 ^ 32 := h
    rw [if_pos h32]
    split_ifs <;> decide
  | qword => exact Width.bytes_le _

/-- The narrowest width holds the literal. -/
theorem lt_minimalWidth (v : Word) : v.toNat < 2 ^ (minimalWidth v).bits := by
  unfold minimalWidth
  split_ifs with h8 h16 h32
  · exact h8
  · exact h16
  · exact h32
  · exact v.isLt

/-- Settles O6: each bound of the choice is the range of the width it chooses. -/
theorem assembledLiteralHasTheNarrowestWidth :
    Obligations.AssembledLiteralHasTheNarrowestWidth :=
  fun v => ⟨lt_minimalWidth v, fun _ h => minimalWidth_bytes_le h⟩

end Sys2Proof.Machine
end

section
/-! PROOFS about reset (spec/70_reset_and_hazards.md R190, R192; spec/10_state.md R26) and about the
fetch of a step (spec/40_execute_common.md R80 to R83; spec/20_memory.md R39). -/

namespace Sys2Proof

/-! ### The code segment is the least whole number of pages (70_reset R192) -/

section
variable {c : Config}

theorem Config.pageSize_dvd_codeSize : c.pageSize ∣ c.codeSize := Nat.dvd_mul_left _ _

theorem Config.bytecodeLen_le_codeSize (h : 0 < c.pageSize) : c.bytecodeLen ≤ c.codeSize := by
  have := Nat.lt_div_mul_add (a := c.bytecodeLen + (c.pageSize - 1)) h
  unfold Config.codeSize
  omega

theorem Config.codeSize_lt (h : 0 < c.pageSize) :
    c.codeSize < c.bytecodeLen + c.pageSize := by
  have := Nat.div_mul_le_self (c.bytecodeLen + (c.pageSize - 1)) c.pageSize
  unfold Config.codeSize
  omega

theorem Config.codeSize_eq_zero (h : c.bytecodeLen = 0) : c.codeSize = 0 := by
  rw [Config.codeSize, h, Nat.zero_add, mul_eq_zero]
  rcases Nat.eq_zero_or_pos c.pageSize with hp | hp
  · exact .inr hp
  · exact .inl (Nat.div_eq_of_lt (by omega))

end

end Sys2Proof

namespace Sys2Proof.Machine

/-! ### Reset -/

theorem State.construct_reg (c : Config) (b : List Byte) (i : RegIdx) :
    (State.construct c b).reg i = 0 := by
  simp [State.reg, State.construct, State.reset]

/-- Memory after construction is the bytecode from offset 0 and zeros after it. -/
theorem State.construct_byte (c : Config) (b : List Byte) (a : Nat) :
    (State.construct c b).byte a = b.getD a 0 := by
  have hread : (State.construct c b).byte a =
      if 0 ≤ a ∧ a < 0 + b.length then b.getD (a - 0) 0 else 0 :=
    Memory.read_writeBytes [] 0 b a
  rw [hread, Nat.sub_zero, Nat.zero_add]
  split_ifs with h
  · rfl
  · rw [List.getD_eq_default _ _ (by omega)]

theorem State.construct_mem_wf (c : Config) (b : List Byte) : (State.construct c b).mem.wf :=
  Memory.wf_writeBytes State.reset_mem_wf 0 b

/-- Construction lists offsets of the bytecode only. -/
theorem State.construct_mem_lt {c : Config} {b : List Byte} {cell : Host.Cell}
    (h : cell ∈ (State.construct c b).mem) : cell.1 < b.length := by
  rcases Memory.mem_writeBytes h with hcell | hcell
  · omega
  · cases hcell

/-- Settles O7, field by field: construction with no bytes writes nothing. -/
theorem resetStateHasTheTablesValues : Obligations.ResetStateHasTheTablesValues :=
  ⟨State.construct_reg Config.default [], rfl, rfl, rfl, fun _ => rfl, rfl, rfl, rfl, rfl⟩

/-- Settles O8: the code segment rounds the bytecode's length up to whole pages, memory holds the
bytecode, and the rest of the state is that of reset. -/
theorem constructionLoadsTheBytecode : Obligations.ConstructionLoadsTheBytecode := by
  intro c b hpage s
  have hsizes : s.cfg.pageSize ∣ s.cfg.codeSize ∧ b.length ≤ s.cfg.codeSize ∧
      s.cfg.codeSize < b.length + s.cfg.pageSize ∧ s.cfg.stackBase = s.cfg.codeSize ∧
      s.cfg.memLimit = s.cfg.stackBase + s.cfg.pageSize ∧
      s.cfg.memTotal = s.cfg.memLimit + s.cfg.guardSize :=
    ⟨Config.pageSize_dvd_codeSize, Config.bytecodeLen_le_codeSize (c := s.cfg) hpage,
      Config.codeSize_lt (c := s.cfg) hpage, rfl, rfl, rfl⟩
  exact ⟨hsizes, rfl, State.construct_byte c b, State.construct_reg c b, rfl, rfl, rfl, rfl, rfl,
    rfl⟩

/-- Settles O10: the bytecode lies in the code segment, so below `MEM_LIMIT`. -/
theorem constructionMeetsTheInvariant : Obligations.ConstructionMeetsTheInvariant := by
  intro c b hcfg
  refine ⟨hcfg, State.construct_mem_wf c b, fun cell hcell => ?_, Nat.zero_le _, rfl⟩
  have hpage : 0 < (State.construct c b).cfg.pageSize := Nat.lt_of_lt_of_le (by decide) hcfg.left
  calc cell.1 < b.length := State.construct_mem_lt hcell
    _ ≤ (State.construct c b).cfg.codeSize :=
      Config.bytecodeLen_le_codeSize (c := (State.construct c b).cfg) hpage
    _ ≤ (State.construct c b).cfg.memLimit := Nat.le_add_right _ _

/-- Settles O9: reset is construction with the empty bytecode. -/
theorem resetMeetsTheInvariant : Obligations.ResetMeetsTheInvariant :=
  constructionMeetsTheInvariant Config.default [] (by decide)

/-- Settles O11: the code segment of the empty bytecode is empty. -/
theorem emptyBytecodeFaultsAtOnce : Obligations.EmptyBytecodeFaultsAtOnce :=
  fun c => step_of_codeSize_le (s := State.construct c []) rfl
    (Config.codeSize_eq_zero (c := (State.construct c []).cfg) rfl).le

/-! ### The fetch window -/

section
variable {s : State}

/-- The whole window lies in memory when `ip` lies in the code segment. -/
theorem fetchWindow_of_WF (hcfg : s.cfg.WF) (hip : s.ip.toNat < s.cfg.codeSize) :
    min maxLength (s.cfg.memTotal - s.ip.toNat) = maxLength := by
  obtain ⟨-, -, hcode, -, hguard⟩ := Config.layout_of_WF hcfg
  unfold maxLength
  omega

theorem fetchBytes_getElem?_of_WF (hcfg : s.cfg.WF) (hip : s.ip.toNat < s.cfg.codeSize) (k : Nat) :
    s.fetchBytes[k]? = if k < maxLength then some (s.byte (s.ip.toNat + k)) else none := by
  rw [State.fetchBytes_getElem?, fetchWindow_of_WF hcfg hip]

theorem fetchBytes_length_of_WF (hcfg : s.cfg.WF) (hip : s.ip.toNat < s.cfg.codeSize) :
    s.fetchBytes.length = maxLength := by
  rw [State.fetchBytes, Memory.bytes_length, fetchWindow_of_WF hcfg hip]

/-- Under admissible parameters bytes 0 and 1 are both fetched. -/
theorem fetchBytes_eq_cons_cons (hcfg : s.cfg.WF) (hip : s.ip.toNat < s.cfg.codeSize) :
    ∃ tail, s.fetchBytes = s.byte s.ip.toNat :: s.byte (s.ip.toNat + 1) :: tail := by
  have h0 := fetchBytes_getElem?_of_WF hcfg hip 0
  have h1 := fetchBytes_getElem?_of_WF hcfg hip 1
  match hf : s.fetchBytes with
  | [] => simp [hf, maxLength] at h0
  | [b0] => simp [hf, maxLength] at h1
  | b0 :: b1 :: tail =>
    obtain rfl : b0 = s.byte s.ip.toNat := by simpa [hf, maxLength] using h0
    obtain rfl : b1 = s.byte (s.ip.toNat + 1) := by simpa [hf, maxLength] using h1
    exact ⟨tail, rfl⟩

end

/-- Settles O24: at least 16 bytes of stack segment and guard area follow the code segment. -/
theorem fetchStaysBelowTheGuard : Obligations.FetchStaysBelowTheGuard := by
  intro s hcfg hip
  obtain ⟨-, -, hcode, -, -⟩ := Config.layout_of_WF hcfg
  exact ⟨by omega, fetchBytes_length_of_WF hcfg hip,
    fun k hk => (fetchBytes_getElem?_of_WF hcfg hip k).trans (if_pos hk)⟩

/-! ### The instruction a step executes -/

theorem step_of_decode {s : State} {i : Instr} {rest : List Byte} (hr : s.status = .running)
    (hip : s.ip.toNat < s.cfg.codeSize) (hd : decode s.cfg s.fetchBytes = .ok (i, rest)) :
    step s = exec i s := by
  rw [step_running hr hip, hd]

/-- Settles O13: of the outcomes of a fetch this is the one that decodes. -/
theorem stepRunsTheDecodedInstruction : Obligations.StepRunsTheDecodedInstruction :=
  fun _ _ _ hr hip hd => step_of_decode hr hip hd

/-- No encoding is longer than the longest instruction (30_encoding R50). -/
theorem encode_length_le (c : Config) (i : Instr) : (encode c i).length ≤ maxLength := by
  rcases i.shape_cases with hs | ⟨mk, writes, w, src, hs, rfl⟩ | ⟨mk, w, d, src, hs, rfl⟩
  · obtain ⟨-, rfl⟩ := Op.of_arity0 hs
    obtain ⟨-, -, hle⟩ := Laws.OpcodeField.halt c
    exact hle
  · obtain ⟨-, -, -, -, henc⟩ := Op.of_arity1 hs w src
    obtain ⟨-, -, hle⟩ := encode1_opcode (c.opcode (mk w src).op) w src
    exact henc c ▸ hle
  · obtain ⟨-, -, -, -, henc⟩ := Op.of_arity2 hs w d src
    obtain ⟨-, -, hle⟩ := encode2_opcode (c.opcode (mk w d src).op) w d src
    exact henc c ▸ hle

/-- Bytes that stand in memory from `ip` on, no more than the longest instruction has, are the first
that a fetch reads. -/
theorem isPrefix_fetchBytes {s : State} (hcfg : s.cfg.WF) (hip : s.ip.toNat < s.cfg.codeSize)
    {bytes : List Byte} (hlen : bytes.length ≤ maxLength)
    (hmem : ∀ (k : Nat) (b : Byte), bytes[k]? = some b → s.byte (s.ip.toNat + k) = b) :
    bytes <+: s.fetchBytes := by
  refine List.prefix_iff_getElem?.2 fun k hk => ?_
  rw [fetchBytes_getElem?_of_WF hcfg hip, if_pos (by omega),
    hmem k bytes[k] (List.getElem?_eq_getElem hk)]

/-- Settles O14: the instruction's bytes begin the fetch, and decoding them gives it back. -/
theorem stepRunsTheInstructionSpelledAtIp : Obligations.StepRunsTheInstructionSpelledAtIp := by
  intro s i hcfg hr hip hwf hmem
  obtain ⟨rest, hfetch⟩ := isPrefix_fetchBytes hcfg hip (encode_length_le s.cfg i) hmem
  obtain ⟨-, -, hinj, -⟩ := hcfg
  exact step_of_decode hr hip (hfetch ▸ decode_encode hinj hwf rest)

/-- Settles O15: the check of `ip` comes before the fetch. -/
theorem stepFaultsIpOutOfBounds : Obligations.StepFaultsIpOutOfBounds :=
  fun _ hr hip => step_of_codeSize_le hr hip

/-! ### The fault of a direct immediate (30_encoding R66) -/

theorem writesSource_shape {op : Op} (h : op = .inc ∨ op = .dec ∨ op = .pop) :
    ∃ mk, op.shape = .arity1 mk true := by
  rcases h with rfl | rfl | rfl <;> exact ⟨_, rfl⟩

/-- Settles O17: bytes 0 and 1 are always fetched, and the decoder refuses a direct immediate on
those. -/
theorem directImmediateDestinationFaults : Obligations.DirectImmediateDestinationFaults := by
  intro s op hcfg hr hip hwrites hop ht hdirect
  obtain ⟨tail, hfetch⟩ := fetchBytes_eq_cons_cons hcfg hip
  obtain ⟨mk, hs⟩ := writesSource_shape hwrites
  obtain ⟨-, -, hinj, -⟩ := hcfg
  have ho := operation_of_opcode hinj hop
  have himm : isDirectImm (s.byte (s.ip.toNat + 1)) = true := isDirectImm_iff.2 ⟨ht, by omega⟩
  have hdecode : decode s.cfg s.fetchBytes = .error (.immediateDestination (s.cfg.opcode op)) := by
    rw [hfetch, decode_arity1 ho hs, himm, Config.opcode_of_operation ho]
    rfl
  rw [step_running hr hip, hdecode]
  rfl

/-! ### Halting -/

/-- The instruction decoded is one whose code stands at `ip`. -/
theorem opcode_of_decode {s : State} {i : Instr} {rest : List Byte}
    (hip : s.ip.toNat < s.cfg.codeSize) (hd : decode s.cfg s.fetchBytes = .ok (i, rest)) :
    (s.byte s.ip.toNat).toNat % 32 = (s.cfg.opcode i.op).toNat := by
  obtain ⟨tail, hfetch⟩ := fetchBytes_eq_cons hip
  obtain ⟨b0, tail', hbytes, ho, -⟩ := decode_ok hd
  obtain ⟨rfl, -⟩ := List.cons.inj (hfetch.symm.trans hbytes)
  rw [Config.opcode_of_operation ho, opcField_toNat]

/-- Settles O21: a raised fault does not halt, and of the effects only that of `halt` does. -/
theorem onlyHaltHalts : Obligations.OnlyHaltHalts := by
  intro s t h ht
  obtain ⟨hrunning, ⟨kind, opc, info, rfl⟩ | ⟨i, rest, hip, hd, hexec⟩⟩ := step_cases h
  · simp at ht
  · rcases (exec_effect hexec).control_cases with ⟨kind, opc, info, rfl⟩ | ⟨rfl, rfl⟩ | ⟨hstatus, -⟩
    · simp at ht
    · exact ⟨opcode_of_decode hip hd, rfl⟩
    · simp [hstatus, hrunning] at ht

end Sys2Proof.Machine
end

section
/-! PROOFS about the bounds check in every instruction (spec/20_memory.md R36, R37): each operation
resolves its operands before all else. -/

namespace Sys2Proof.Machine

section
variable {op : Op}

theorem exec_eq_withSrc {mk : Width → Src → Instr} {writes : Bool}
    (hshape : op.shape = .arity1 mk writes) (w : Width) (src : Src) (s : State) :
    ∃ k, exec (mk w src) s = withSrc op w src s k := by
  cases op with
  | add | sub | mul | div | mod | and | or | xor | shl | shr | mov | cmp | halt => cases hshape
  | inc | dec =>
    cases hshape
    simp only [exec, execInc, execDec, adjust, withWritableSrc]
    exact ⟨_, rfl⟩
  | push =>
    cases hshape
    simp only [exec, execPush]
    exact ⟨_, rfl⟩
  | pop =>
    cases hshape
    simp only [exec, execPop, withWritableSrc]
    exact ⟨_, rfl⟩
  | jz | jnz | jg | js =>
    cases hshape
    simp only [exec, execJz, execJnz, execJg, execJs, jumpIf]
    exact ⟨_, rfl⟩
  | printi =>
    cases hshape
    exact ⟨_, exec_printi w src s⟩

theorem exec_eq_withDstSrc {mk : Width → Dst → Src → Instr} (hshape : op.shape = .arity2 mk)
    (w : Width) (d : Dst) (src : Src) (s : State) :
    ∃ k, exec (mk w d src) s = withDstSrc op w d src s k := by
  cases op with
  | inc | dec | push | pop | jz | jnz | jg | js | printi | halt => cases hshape
  | add | sub | mul | and | or | xor | shl | shr =>
    cases hshape
    simp only [exec, execAdd, execSub, execMul, execAnd, execOr, execXor, execShl, execShr, combine]
    exact ⟨_, rfl⟩
  | div | mod =>
    cases hshape
    simp only [exec, execDiv, execMod, combineNonzero]
    exact ⟨_, rfl⟩
  | mov =>
    cases hshape
    exact ⟨_, exec_mov w d src s⟩
  | cmp =>
    cases hshape
    exact ⟨_, exec_cmp w d src s⟩

/-- Every arity-1 operation meets its words and violations. -/
theorem arityOne_spec {mk : Width → Src → Instr} {writes : Bool}
    (hshape : op.shape = .arity1 mk writes) :
    ArityOneWords (Config.default.opcode op).toNat mk ∧ ArityOneViolations op mk :=
  ⟨arityOneWords_of_shape hshape, arityOneViolations_of_withSrc (exec_eq_withSrc hshape)⟩

/-- Every arity-2 operation meets its words and violations. -/
theorem arityTwo_spec {mk : Width → Dst → Src → Instr} (hshape : op.shape = .arity2 mk) :
    ArityTwoWords (Config.default.opcode op).toNat mk ∧ ArityTwoViolations op mk :=
  ⟨arityTwoWords_of_shape hshape, arityTwoViolations_of_withDstSrc (exec_eq_withDstSrc hshape)⟩

end

/-- Settles O30, shape by shape: the violations are those of the shape. -/
theorem boundsAreCheckedBeforeAnyEffect : Obligations.BoundsAreCheckedBeforeAnyEffect := by
  intro i w src s a hsrc
  rcases i.shape_cases with hs | ⟨mk, writes, w', src', hs, rfl⟩ | ⟨mk, w', d', src', hs, rfl⟩
  · obtain ⟨-, rfl⟩ := Op.of_arity0 hs
    cases hsrc
  · obtain ⟨-, hnodst, hsrc', -⟩ := Op.of_arity1 hs w' src'
    obtain ⟨rfl, rfl⟩ := Prod.mk.inj (Option.some.inj (hsrc'.symm.trans hsrc))
    obtain ⟨-, hviolations⟩ := arityOne_spec hs
    refine ⟨fun d hd => ?_, fun _ => hviolations w' src' s a⟩
    cases hnodst.symm.trans hd
  · obtain ⟨-, hdst, hsrc', -⟩ := Op.of_arity2 hs w' d' src'
    obtain ⟨rfl, rfl⟩ := Prod.mk.inj (Option.some.inj (hsrc'.symm.trans hsrc))
    obtain ⟨-, hviolations⟩ := arityTwo_spec hs
    obtain ⟨hdstOut, hsrcOut⟩ := hviolations w' d' src' s a
    refine ⟨fun d hd => ?_, fun hin => hsrcOut (hin d' hdst)⟩
    obtain rfl := Option.some.inj (hdst.symm.trans hd)
    exact hdstOut

end Sys2Proof.Machine
end

section
/-! PROOFS of the rest of the arithmetic family (spec/41_arithmetic_bitwise.md): division by zero
(R113) and the shifts, whose count is not masked (R112). -/

namespace Sys2Proof.Machine

/-! ### Division -/

theorem quotientOf_computes : Computes (fun _ => quotientOf) fun _ a b => a / b := by
  intro w a b _ _
  simp only [quotientOf, BitVec.toNat_udiv]

theorem remainderOf_computes : Computes (fun _ => remainderOf) fun _ a b => a % b := by
  intro w a b _ _
  simp only [remainderOf, BitVec.toNat_umod]

/-- The divisor loaded is 0 exactly when the source's value is. -/
theorem Src.load_eq_zero_iff {w : Width} {src : Src} (h : src.fits w = true) (s : State) :
    (srcLoc s src).load s w = 0 ↔ srcValue s w src = 0 := by
  rw [← Src.load_toNat h, BitVec.toNat_eq]
  rfl

/-- Both operands in bounds and a divisor of 0, `mk` faults DivideByZero (R113). -/
def FaultsOnZero (op : Op) (mk : Width → Dst → Src → Instr) : Prop :=
  ∀ (w : Width) (d : Dst) (src : Src) (s : State), (mk w d src).wf = true →
    inBounds s w (dstAddress s d) = true → inBounds s w (srcAddress s src) = true →
    srcValue s w src = 0 →
    exec (mk w d src) s = .next (faultOf s .divideByZero (some (s.cfg.opcode op)) .none)

/-- Both operands in bounds and a divisor other than 0, `mk` completes and leaves `g a b` modulo
`2^(8·W)` at the destination. -/
def StoresResultUnlessZero (mk : Width → Dst → Src → Instr) (g : Width → Nat → Nat → Nat) : Prop :=
  ∀ (w : Width) (d : Dst) (src : Src) (s : State), (mk w d src).wf = true →
    inBounds s w (dstAddress s d) = true → inBounds s w (srcAddress s src) = true →
    srcValue s w src ≠ 0 →
    ∃ t, exec (mk w d src) s = .next t ∧
      CompletedStore (dstPlace s d) w (g w (dstValue s w d) (srcValue s w src) % 2 ^ w.bits)
        (instrLength (mk w d src)) s t

theorem combineNonzero_of_inBounds {w : Width} {d : Dst} {src : Src} {s : State} (op : Op)
    (f : Word → Word → Word) (hd : inBounds s w (dstAddress s d) = true)
    (hs : inBounds s w (srcAddress s src) = true) :
    combineNonzero op f w d src s =
      if (srcLoc s src).load s w = 0 then .next (s.raiseIn op .divideByZero .none)
      else combine op f w d src s := by
  rw [combineNonzero, withDstSrc_of_inBounds op _ hd, withSrc_of_inBounds op _ hs,
    combine_of_inBounds op f hd hs]

/-- On operands in bounds the template leaves `g a b` modulo `2^(8·W)` at the destination. -/
theorem combine_completes {op : Op} {f : Width → Word → Word → Word} {g : Width → Nat → Nat → Nat}
    (hfg : Computes f g) {w : Width} {d : Dst} {src : Src} {s : State} (hfits : src.fits w = true)
    (hd : inBounds s w (dstAddress s d) = true) (hs : inBounds s w (srcAddress s src) = true) :
    ∃ t, combine op (f w) w d src s = .next t ∧
      CompletedStore (dstPlace s d) w (g w (dstValue s w d) (srcValue s w src) % 2 ^ w.bits)
        (src.length w) s t := by
  have hdst : ((dstPlace s d).load s w).toNat = dstValue s w d := Place.load_toNat _ s w
  have hval : ((srcLoc s src).load s w).toNat = srcValue s w src := Src.load_toNat hfits s
  have hresult := hfg w ((dstPlace s d).load s w) ((srcLoc s src).load s w)
    (hdst ▸ Place.value_lt _ s w) (hval ▸ srcValue_lt hfits s)
  rw [hdst, hval] at hresult
  rw [← hresult]
  exact ⟨_, combine_of_inBounds op (f w) hd hs, Place.store_past_completed _ w _ src s⟩

section
variable {op : Op} {mk : Width → Dst → Src → Instr} {f : Width → Word → Word → Word}
  {g : Width → Nat → Nat → Nat}

theorem faultsOnZero_of_combineNonzero (hshape : op.shape = .arity2 mk)
    (hexec : ∀ w d src s, exec (mk w d src) s = combineNonzero op (f w) w d src s) :
    FaultsOnZero op mk := by
  intro w d src s hwf hd hs hzero
  obtain ⟨-, -, -, hfits, -⟩ := Op.of_arity2 hshape w d src
  have hload := (Src.load_eq_zero_iff (hfits ▸ hwf) s).2 hzero
  rw [hexec, combineNonzero_of_inBounds op (f w) hd hs, if_pos hload]
  rfl

theorem storesResultUnlessZero_of_combineNonzero (hshape : op.shape = .arity2 mk)
    (hexec : ∀ w d src s, exec (mk w d src) s = combineNonzero op (f w) w d src s)
    (hfg : Computes f g) : StoresResultUnlessZero mk g := by
  intro w d src s hwf hd hs hzero
  obtain ⟨-, -, hsrc, hfits, -⟩ := Op.of_arity2 hshape w d src
  rw [hfits] at hwf
  have hload := mt (Src.load_eq_zero_iff hwf s).1 hzero
  rw [hexec, combineNonzero_of_inBounds op (f w) hd hs, if_neg hload,
    instrLength_of_instrSrc hsrc]
  exact combine_completes hfg hwf hd hs

/-- What `div` and `mod` meet: words, violations, the fault on 0 and the result. -/
theorem combineNonzero_spec (hshape : op.shape = .arity2 mk)
    (hexec : ∀ w d src s, exec (mk w d src) s = combineNonzero op (f w) w d src s)
    (hfg : Computes f g) :
    ArityTwoWords (Config.default.opcode op).toNat mk ∧ ArityTwoViolations op mk ∧
      FaultsOnZero op mk ∧ StoresResultUnlessZero mk g := by
  obtain ⟨hwords, hviolations⟩ := arityTwo_spec hshape
  exact ⟨hwords, hviolations, faultsOnZero_of_combineNonzero hshape hexec,
    storesResultUnlessZero_of_combineNonzero hshape hexec hfg⟩

end

/-- Settles O36: the template of R100 with the fault of R113, at the quotient. -/
theorem divStoresQuotient : Obligations.DivStoresQuotient :=
  combineNonzero_spec (op := .div) rfl (fun _ _ _ _ => rfl) quotientOf_computes

/-- Settles O37: the template of R100 with the fault of R113, at the remainder. -/
theorem modStoresRemainder : Obligations.ModStoresRemainder :=
  combineNonzero_spec (op := .mod) rfl (fun _ _ _ _ => rfl) remainderOf_computes

/-! ### Shifts -/

/-- A count of the width or more makes the product a multiple of `2^(8·W)`. -/
theorem shiftedLeft_computes : Computes shiftedLeft fun _ a b => a * 2 ^ b := by
  intro w a b _ _
  unfold shiftedLeft
  split_ifs with h
  · exact (Nat.mod_eq_zero_of_dvd (Dvd.dvd.mul_left (pow_dvd_pow 2 h) a.toNat)).symm
  · rw [BitVec.toNat_shiftLeft, Nat.shiftLeft_eq, Nat.mod_mod_of_dvd _ w.pow_bits_dvd]

/-- A count of the width or more divides a value of `8·W` bits down to 0. -/
theorem shiftedRight_computes : Computes shiftedRight fun _ a b => a / 2 ^ b := by
  intro w a b ha _
  unfold shiftedRight
  split_ifs with h
  · have hlt : a.toNat < 2 ^ b.toNat := ha.trans_le (Nat.pow_le_pow_right (by decide) h)
    simp only [Nat.div_eq_of_lt hlt]
    rfl
  · rw [BitVec.toNat_ushiftRight, Nat.shiftRight_eq_div_pow]

/-- Settles O41: the template of R100 at the left shift by the whole count. -/
theorem shlStoresShiftedLeft : Obligations.ShlStoresShiftedLeft :=
  combine_spec (op := .shl) rfl (fun _ _ _ _ => rfl) shiftedLeft_computes

/-- Settles O42: the template of R100 at the right shift by the whole count. -/
theorem shrStoresShiftedRight : Obligations.ShrStoresShiftedRight :=
  combine_spec (op := .shr) rfl (fun _ _ _ _ => rfl) shiftedRight_computes

end Sys2Proof.Machine
end

section
/-! PROOFS of inc and dec (spec/43_inc_dec.md R125 to R127): the sum and the difference with 1, at the
operand's own place. -/

namespace Sys2Proof.Machine

/-! ### An operand that is written -/

section
variable {op : Op} {w : Width} {src : Src} {s : State} {k : Place → Result}

/-- A direct immediate is no place to write (30_encoding R66). -/
theorem withWritableSrc_imm (op : Op) (w : Width) (v : Word) (s : State) (k : Place → Result) :
    withWritableSrc op w (.imm v) s k = .next (faultOf s .invalidInstruction
      (some (s.cfg.opcode op)) (.opcode (s.cfg.opcode op))) := rfl

theorem withWritableSrc_of_inBounds {p : Place} (hp : srcLoc s src = .place p)
    (hs : inBounds s w (srcAddress s src) = true) : withWritableSrc op w src s k = k p := by
  rw [withWritableSrc, withSrc_of_inBounds op _ hs, hp]

end

/-! ### The shape of R125 and R126 -/

/-- A direct immediate operand faults InvalidInstruction (30_encoding R66). -/
def FaultsOnImmediate (op : Op) (mk : Width → Src → Instr) : Prop :=
  ∀ (w : Width) (v : Word) (s : State), exec (mk w (.imm v)) s =
    .next (faultOf s .invalidInstruction (some (s.cfg.opcode op)) (.opcode (s.cfg.opcode op)))

/-- The operand in bounds, `mk` completes and leaves `g a 1` modulo `2^(8·W)` where `a` stood. -/
def AdjustsByOne (mk : Width → Src → Instr) (g : Width → Nat → Nat → Nat) : Prop :=
  ∀ (w : Width) (src : Src) (p : Place) (s : State), (mk w src).wf = true →
    srcLoc s src = .place p → inBounds s w (srcAddress s src) = true →
    ∃ t, exec (mk w src) s = .next t ∧
      CompletedStore p w (g w (p.value s w) 1 % 2 ^ w.bits) (instrLength (mk w src)) s t

/-- What `inc` and `dec` meet: words, violations, the fault of a direct immediate and the result. -/
theorem adjust_spec {op : Op} {mk : Width → Src → Instr} {writes : Bool}
    {f : Width → Word → Word → Word} {g : Width → Nat → Nat → Nat}
    (hshape : op.shape = .arity1 mk writes)
    (hexec : ∀ w src s, exec (mk w src) s = adjust op (fun v => f w v 1) w src s)
    (hfg : Computes f g) :
    ArityOneWords (Config.default.opcode op).toNat mk ∧ ArityOneViolations op mk ∧
      FaultsOnImmediate op mk ∧ AdjustsByOne mk g := by
  obtain ⟨hwords, hviolations⟩ := arityOne_spec hshape
  refine ⟨hwords, hviolations, fun w v s => ?_, fun w src p s _ hp hs => ?_⟩
  · rw [hexec, adjust, withWritableSrc_imm]
  · obtain ⟨-, -, hsrc, -⟩ := Op.of_arity1 hshape w src
    have hload : (p.load s w).toNat = p.value s w := p.load_toNat s w
    have hone : (1 : Word).toNat < 2 ^ w.bits := Nat.one_lt_two_pow w.bits_pos.ne'
    have hresult := hfg w (p.load s w) 1 (hload ▸ p.value_lt s w) hone
    rw [hload] at hresult
    rw [hexec, adjust, withWritableSrc_of_inBounds hp hs, instrLength_of_instrSrc hsrc]
    exact ⟨_, rfl, hresult ▸ p.store_past_completed w _ src s⟩

/-- Settles O44: the operand's place receives its sum with 1. -/
theorem incAddsOneInPlace : Obligations.IncAddsOneInPlace :=
  adjust_spec (op := .inc) rfl (fun _ _ _ => rfl) sumOf_computes

/-- Settles O45: the operand's place receives its difference with 1, borrowing at width `W`. -/
theorem decSubtractsOneInPlace : Obligations.DecSubtractsOneInPlace :=
  adjust_spec (op := .dec) rfl (fun _ _ _ => rfl) differenceOf_computes

end Sys2Proof.Machine
end

section
/-! PROOFS of the jumps (spec/46_jumps.md R145 to R150): what every conditional jump answers with its
operand in bounds, taken and not taken. -/

namespace Sys2Proof.Machine

theorem State.advance_eq_ipUpdate (s : State) (v : Word) :
    s.advance v = { s with ip := s.ip + v } := rfl

section
variable {op : Op} {taken : Flags → Bool} {w : Width} {src : Src} {s : State}

theorem jumpIf_of_inBounds (hs : inBounds s w (srcAddress s src) = true) :
    jumpIf op taken w src s =
      if taken s.flags then .next (s.advance (signExtend w ((srcLoc s src).load s w)))
      else .next (s.past w src) := by
  rw [jumpIf, withSrc_of_inBounds op _ hs]

/-- R146: a taken jump adds the source, read as signed, to the jump's own address. -/
theorem advance_signExtend_source (hfits : src.fits w = true) :
    s.advance (signExtend w ((srcLoc s src).load s w)) =
      { s with ip := BitVec.ofInt 64 (s.ip.toNat + signedValue w (srcValue s w src)) } := by
  have hload : ((srcLoc s src).load s w).toNat = srcValue s w src := Src.load_toNat hfits s
  rw [State.advance_eq_ipUpdate, add_signExtend w _ s.ip (hload ▸ srcValue_lt hfits s), hload]

end

/-- The operand in bounds, `mk` jumps when `P` holds of the flags and moves on when it does not. -/
def JumpsWhen (mk : Width → Src → Instr) (P : Flags → Prop) : Prop :=
  ∀ (w : Width) (src : Src) (s : State), (mk w src).wf = true →
    inBounds s w (srcAddress s src) = true →
    (P s.flags → exec (mk w src) s =
      .next { s with ip := BitVec.ofInt 64 (s.ip.toNat + signedValue w (srcValue s w src)) }) ∧
    (¬P s.flags → exec (mk w src) s =
      .next { s with ip := BitVec.ofNat 64 (s.ip.toNat + instrLength (mk w src)) })

/-- What every jump meets: words, violations and both answers. -/
theorem jumpIf_spec {op : Op} {mk : Width → Src → Instr} {taken : Flags → Bool} {P : Flags → Prop}
    (hshape : op.shape = .arity1 mk false)
    (hexec : ∀ w src s, exec (mk w src) s = jumpIf op taken w src s)
    (htaken : ∀ f, taken f = true ↔ P f) :
    ArityOneWords (Config.default.opcode op).toNat mk ∧ ArityOneViolations op mk ∧
      JumpsWhen mk P := by
  obtain ⟨hwords, hviolations⟩ := arityOne_spec hshape
  refine ⟨hwords, hviolations, fun w src s hwf hs => ?_⟩
  obtain ⟨-, -, hsrc, hwf', -⟩ := Op.of_arity1 hshape w src
  obtain ⟨hfits, -⟩ := Bool.and_eq_true_iff.1 (hwf'.symm.trans hwf)
  rw [hexec, jumpIf_of_inBounds hs, instrLength_of_instrSrc hsrc]
  refine ⟨fun hP => ?_, fun hP => ?_⟩
  · rw [if_pos ((htaken _).2 hP), advance_signExtend_source hfits]
  · rw [if_neg (mt (htaken _).1 hP), State.past_eq_ipUpdate]

/-- Settles O49: the conditional jump, taken at flags zero. -/
theorem jzJumpsWhenZero : Obligations.JzJumpsWhenZero :=
  jumpIf_spec (op := .jz) (P := (· = .zero)) rfl (fun _ _ _ => rfl) fun _ => decide_eq_true_iff

/-- Settles O50: the conditional jump, taken at all flags but zero. -/
theorem jnzJumpsUnlessZero : Obligations.JnzJumpsUnlessZero :=
  jumpIf_spec (op := .jnz) (P := (· ≠ .zero)) rfl (fun _ _ _ => rfl) fun _ => decide_eq_true_iff

/-- Settles O51: the conditional jump, taken at flags greater. -/
theorem jgJumpsWhenGreater : Obligations.JgJumpsWhenGreater :=
  jumpIf_spec (op := .jg) (P := (· = .greater)) rfl (fun _ _ _ => rfl) fun _ => decide_eq_true_iff

/-- Settles O52: the conditional jump, taken at flags smaller. -/
theorem jsJumpsWhenSmaller : Obligations.JsJumpsWhenSmaller :=
  jumpIf_spec (op := .js) (P := (· = .smaller)) rfl (fun _ _ _ => rfl) fun _ => decide_eq_true_iff

end Sys2Proof.Machine
end

section
/-! PROOFS about memory read back (spec/20_memory.md R30, R31) and the stack (spec/44_stack.md R130 to
R134): what `push` and `pop` answer, and that a pop undoes a push. -/

namespace Sys2Proof.Machine

/-! ### Reading what was written -/

/-- Settles O31: a read takes byte `k` from its own offset, and the write either covers that offset
or leaves it alone. -/
theorem readSeesTheBytesOfAnOverlappingWrite :
    Obligations.ReadSeesTheBytesOfAnOverlappingWrite := by
  intro s wr rd a b v k hk
  have hread : ((s.memWrite wr a v).memRead rd b).toNat / 2 ^ (8 * k) % 256 =
      ((s.memWrite wr a v).byte (b + k)).toNat := by
    rw [State.memRead_toNat, State.littleEndian_eq]
    exact Memory.readLE_byte _ b rd.bytes k hk
  rw [hread, State.memWrite_byte]
  split_ifs with hcovered
  · exact BitVec.toNat_ofNat _ _
  · rfl

/-- A value of `8·W` bits written at width `W` is read back. -/
theorem littleEndian_memWrite (s : State) {w : Width} {v : Word} (hv : v.toNat < 2 ^ w.bits)
    (a : Nat) : (s.memWrite w a v).littleEndian a w.bytes = v.toNat := by
  rw [State.littleEndian_eq, State.memWrite_mem, Memory.readLE_writeLE]
  exact Nat.mod_eq_of_lt hv

/-! ### The states a push and a pop lead to, but for `ip` -/

/-- `v` stands above the top of the stack, and `esp` above `v` (44_stack R131). -/
def State.pushed (s : State) (w : Width) (v : Word) : State :=
  (s.memWrite w (s.cfg.stackBase + s.esp.toNat) v).setEsp (s.esp + BitVec.ofNat 64 w.bytes)

/-- The top of the stack is stored at `p`, and `esp` stands below it (44_stack R133). -/
def State.popped (s : State) (w : Width) (p : Place) : State :=
  (p.store s w (s.memRead w (s.cfg.stackBase + s.esp.toNat - w.bytes))).setEsp
    (s.esp - BitVec.ofNat 64 w.bytes)

/-- What completes keeps: `flags`, the stream, the status, the record and the parameters. -/
theorem State.pushed_controlKept (s : State) (w : Width) (v : Word) :
    ControlKept s (s.pushed w v) := ⟨rfl, rfl, rfl, rfl, rfl⟩

theorem State.popped_controlKept (s : State) (w : Width) (p : Place) :
    ControlKept s (s.popped w p) :=
  ⟨p.store_flags _ _ _, p.store_out _ _ _, p.store_status _ _ _, p.store_faultRecord _ _ _,
    p.store_cfg _ _ _⟩

/-- The popped value is the bytes below the top as they stood before. -/
theorem State.popped_holds (s : State) (w : Width) (p : Place) :
    p.Holds w (s.littleEndian (s.cfg.stackBase + s.esp.toNat - w.bytes) w.bytes) s
      (s.popped w p) := by
  have hholds := p.store_holds s w (s.memRead w (s.cfg.stackBase + s.esp.toNat - w.bytes))
  have hlt : s.littleEndian (s.cfg.stackBase + s.esp.toNat - w.bytes) w.bytes < 2 ^ w.bits :=
    s.littleEndian_lt _ _
  rw [State.memRead_toNat, Nat.mod_eq_of_lt hlt] at hholds
  cases p <;> exact hholds

/-! ### What push answers -/

section
variable {w : Width} {src : Src} {s : State}

theorem exec_push_of_inBounds (hs : inBounds s w (srcAddress s src) = true) :
    exec (.push w src) s =
      if s.cfg.stackSize < s.esp.toNat + w.bytes then
        .next (s.raiseIn .push .stackOverflow (.stack s.esp w))
      else .next ((s.pushed w ((srcLoc s src).load s w)).past w src) := by
  simp only [exec, execPush]
  exact withSrc_of_inBounds .push _ hs

theorem exec_push_of_fits (hs : inBounds s w (srcAddress s src) = true)
    (hroom : s.esp.toNat + w.bytes ≤ s.cfg.stackSize) :
    exec (.push w src) s = .next ((s.pushed w ((srcLoc s src).load s w)).past w src) := by
  rw [exec_push_of_inBounds hs, if_neg (not_lt.2 hroom)]

end

/-- Settles O46: the check of the source, then that of the room, then the value byte by byte. -/
theorem pushWritesAboveTheTop : Obligations.PushWritesAboveTheTop := by
  obtain ⟨hwords, hviolations⟩ := arityOne_spec (op := .push) rfl
  refine ⟨hwords, hviolations, fun w src s hs hfull => ?_, fun w src s hwf hs hroom => ?_⟩
  · rw [exec_push_of_inBounds hs, if_pos hfull]
    rfl
  · refine ⟨_, exec_push_of_fits hs hroom, fun k hk => ?_, fun b hb => ?_, fun _ => rfl,
      esp_push_toNat s.esp w, ?_, s.pushed_controlKept w ((srcLoc s src).load s w)⟩
    · have hcovered : s.cfg.stackBase + s.esp.toNat ≤ s.cfg.stackBase + s.esp.toNat + k ∧
          s.cfg.stackBase + s.esp.toNat + k < s.cfg.stackBase + s.esp.toNat + w.bytes := by omega
      rw [State.past_eq, State.advance_byte, State.pushed, State.setEsp_byte, State.memWrite_byte,
        if_pos hcovered, Nat.add_sub_cancel_left, Src.load_toNat hwf]
      exact BitVec.toNat_ofNat _ _
    · rw [State.past_eq, State.advance_byte, State.pushed, State.setEsp_byte, State.memWrite_byte,
        if_neg (by omega)]
    · rw [instrLength_of_instrSrc rfl]
      exact movedPast_past w src rfl

/-! ### What pop answers -/

theorem exec_pop (w : Width) (src : Src) (s : State) :
    exec (.pop w src) s = withWritableSrc .pop w src s fun p =>
      if s.esp.toNat < w.bytes then .next (s.raiseIn .pop .stackUnderflow (.stack s.esp w))
      else if s.cfg.memTotal < s.cfg.stackBase + s.esp.toNat then .fault .beyondMemory
      else .next ((s.popped w p).past w src) := rfl

/-- A writable operand resolves to a place. -/
theorem exists_place_of_writable {src : Src} (h : src.writable = true) (s : State) :
    ∃ p, srcLoc s src = .place p := by
  cases src with
  | reg | memReg | memImm => exact ⟨_, rfl⟩
  | imm => cases h

section
variable {w : Width} {src : Src} {p : Place} {s : State}

theorem exec_pop_of_underflow (hp : srcLoc s src = .place p)
    (hs : inBounds s w (srcAddress s src) = true) (hempty : s.esp.toNat < w.bytes) :
    exec (.pop w src) s =
      .next (faultOf s .stackUnderflow (some (s.cfg.opcode .pop)) (.stack s.esp w)) := by
  rw [exec_pop, withWritableSrc_of_inBounds hp hs, if_pos hempty]
  rfl

/-- Under the invariant's bound on `esp` the top of the stack lies in memory. -/
theorem exec_pop_of_holds (hp : srcLoc s src = .place p)
    (hs : inBounds s w (srcAddress s src) = true) (hfull : w.bytes ≤ s.esp.toNat)
    (hesp : s.esp.toNat ≤ s.cfg.stackSize) :
    exec (.pop w src) s = .next ((s.popped w p).past w src) := by
  have hinside : s.cfg.stackBase + s.esp.toNat ≤ s.cfg.memTotal := by
    unfold Config.memTotal Config.memLimit Config.stackBase
    omega
  rw [exec_pop, withWritableSrc_of_inBounds hp hs, if_neg (not_lt.2 hfull),
    if_neg (not_lt.2 hinside)]

end

/-- Settles O47: the check of the destination, then that of the stack's contents, then the store of
the top of the stack. -/
theorem popReadsTheTop : Obligations.PopReadsTheTop := by
  obtain ⟨hwords, hviolations⟩ := arityOne_spec (op := .pop) rfl
  refine ⟨hwords, hviolations, fun w v s => ?_, fun w src s hwf hs hempty => ?_,
    fun w src p s _ hp hs hfull hesp => ?_⟩
  · rw [exec_pop, withWritableSrc_imm]
  · obtain ⟨-, hwritable⟩ := Bool.and_eq_true_iff.1 hwf
    obtain ⟨p, hp⟩ := exists_place_of_writable hwritable s
    exact exec_pop_of_underflow hp hs hempty
  · refine ⟨_, exec_pop_of_holds hp hs hfull hesp, (s.popped_holds w p).past src,
      esp_pop_toNat hfull, ?_, s.popped_controlKept w p⟩
    rw [instrLength_of_instrSrc rfl]
    exact movedPast_past w src (p.store_ip s w _)

/-! ### A pop undoes a push -/

/-- The low `W` bytes of a register that holds a stored value are that value, at both values of
`REG_NARROW_WRITE`. -/
theorem Place.Holds.reg_mod {j : RegIdx} {w : Width} {v : Nat} {s t : State}
    (h : (Place.reg j).Holds w v s t) : (t.reg j).toNat % 2 ^ w.bits = v % 2 ^ w.bits := by
  obtain ⟨hreg, -, -⟩ := h
  rw [hreg]
  cases s.cfg.narrowWrite with
  | merge => exact Nat.mul_add_mod' _ _ _
  | zeroExtend => rfl

/-- Settles O32: the pop reads the bytes the push wrote, and moves `esp` back by what the push moved
it. -/
theorem popReturnsWhatPushPushed : Obligations.PopReturnsWhatPushPushed := by
  intro w src j s hcfg hwf hs hroom
  obtain ⟨hstack, -⟩ := Config.layout_of_WF hcfg
  have hvalue : ((srcLoc s src).load s w).toNat = srcValue s w src := Src.load_toNat hwf s
  have hlt : ((srcLoc s src).load s w).toNat < 2 ^ w.bits := hvalue ▸ srcValue_lt hwf s
  set v := (srcLoc s src).load s w
  set t := (s.pushed w v).past w src
  have hesp : t.esp.toNat = s.esp.toNat + w.bytes :=
    (esp_push_toNat s.esp w).trans (Nat.mod_eq_of_lt (by omega))
  have htop : t.cfg.stackBase + t.esp.toNat - w.bytes = s.cfg.stackBase + s.esp.toNat := by
    rw [hesp, ← Nat.add_assoc, Nat.add_sub_cancel]
    rfl
  refine ⟨t, (t.popped w (.reg j)).past w (.reg j), exec_push_of_fits hs hroom,
    exec_pop_of_holds rfl rfl (by omega) (hesp ▸ hroom), ?_, ?_⟩
  · rw [((t.popped_holds w (.reg j)).past (.reg j)).reg_mod, htop, ← hvalue]
    have hread : t.littleEndian (s.cfg.stackBase + s.esp.toNat) w.bytes = v.toNat :=
      littleEndian_memWrite s hlt _
    rw [hread, Nat.mod_eq_of_lt hlt]
  · show s.esp + BitVec.ofNat 64 w.bytes - BitVec.ofNat 64 w.bytes = s.esp
    exact BitVec.add_sub_cancel _ _

end Sys2Proof.Machine
end
